-- ==== Sys2Proof/Word.lean ====
section
/-! DEFINITION. The word types of the block and the two register shapes built from them
(`00_scope.md` R7, R9, R10). Addition of words is `BitVec` addition: modulo 2^32, with no carry out,
no overflow indication and no trap (R10, R128). -/

namespace Sys2Proof

/-- An unsigned 8-bit value (R5). -/
abbrev Byte := BitVec 8

/-- A 32-bit unsigned integer, bit 0 its least significant bit (R9, R10). -/
abbrev Word := BitVec 32

/-- Eight words: HS, V and DIGEST (R17, R18, R34). -/
abbrev Words8 := Vector Word 8

/-- Sixty-four words: the message schedule W (R19). -/
abbrev Schedule := Vector Word 64

end Sys2Proof
end

