-- ==== Sys2Proof/Machine/Operands.lean ====
section
/-! DEFINITION. Operand forms: shifts and rotations of words (`00_scope.md` R11, R12), big-endian
conversions between bytes and numbers (R13, `20_memory.md` R42 to R44) and the fields of a host
offset (`30_encoding.md` R55, R60, R61). -/

namespace Sys2Proof.Machine

/-- ROTR(x, n) for 1 <= n <= 31 (R11). -/
def rotr (x : Word) (n : Nat) : Word := (x >>> n) ||| (x <<< (32 - n))

/-- SHR(x, n), the logical right shift (R12). -/
def shr (x : Word) (n : Nat) : Word := x >>> n

/-- BE32(b0, b1, b2, b3): bits 31:24 are b0, bits 7:0 are b3 (R13). -/
def be32 (b0 b1 b2 b3 : Byte) : Word := b0 ++ b1 ++ b2 ++ b3

/-- Byte lane m of a word, w[31-8m : 24-8m] for m = 0..3 (R41, R42, R44). -/
def lane (w : Word) (m : Nat) : Byte := w.extractLsb' (24 - 8 * m) 8

/-- bytesBE32(w), most significant byte first (R13). -/
def bytesBE32 (w : Word) : List Byte := [lane w 0, lane w 1, lane w 2, lane w 3]

/-- Byte m (m = 0..7) of bytesBE64(v), most significant first (R13). -/
def byteBE64 (v : BitVec 64) (m : Nat) : Byte := v.extractLsb' (56 - 8 * m) 8

/-- bytesBE64(v), most significant byte first (R13). -/
def bytesBE64 (v : BitVec 64) : List Byte := (List.range 8).map (byteBE64 v)

/-- `off & 0xFFFFFFFC`: offset bits 1:0 are ignored (R39). -/
def alignOff (off : Word) : Word := off &&& 0xFFFFFFFC#32

/-- off[31], which selects the MSG window (R55, R56). -/
def offWindow (off : Word) : Bool := off.getLsbD 31

/-- off[31:6], all zero for the register file (R55, R56). -/
def offHigh (off : Word) : BitVec 26 := off.extractLsb' 6 26

/-- The register index r = off[5:2] (R55, R57). -/
def offRegister (off : Word) : BitVec 4 := off.extractLsb' 2 4

/-- The DIGEST index k = off[4:2] (R61). -/
def offDigest (off : Word) : Fin 8 := (off.extractLsb' 2 3).toFin

/-- The word index off[30:2], an unsigned 29-bit number (R60). -/
def offIndex (off : Word) : BitVec 29 := off.extractLsb' 2 29

end Sys2Proof.Machine
end

