-- ==== Sys2Proof/Syntax.lean ====
section
/-! DEFINITION. The instructions of the block: one constructor per row of `spec/opcode_table.json`
(`30_encoding.md` R55 to R63), the host access record that selects a host operation, the phase that
selects a sequencer step, and the code that holds either. -/

namespace Sys2Proof

/-- The sequencer's control state, exactly six values (R20, R63). -/
inductive Phase where
  | idle | load | expand | round | accum | final
deriving DecidableEq, Repr

/-- One host access, the record (rw, off, wdata); wdata is present only for writes (R55). -/
inductive Access where
  | read  (off : Word)
  | write (off wdata : Word)
deriving DecidableEq, Repr

/-- What selects an instruction: a host access record (R55) or the 3-bit phase code (R63). -/
inductive Code where
  | access (a : Access)
  | phase  (c : BitVec 3)
deriving DecidableEq, Repr

/-- The twenty-one operations: sixteen host operations and five sequencer steps. The operand `i` is
the MSG window word index off[30:2] (R60), `k` the DIGEST index off[4:2] (R61), `x` the word index
off[30:2] of a reserved offset (R62). Offset bits 1:0 are ignored (R39) and leave no operand. -/
inductive Instr where
  | rdCtrl                                          -- RD_CTRL, R108
  | wrCtrlClear (wdata : Word)                      -- WR_CTRL_CLEAR, R109
  | wrCtrlStart (wdata : Word)                      -- WR_CTRL_START, R110
  | wrCtrlNop   (wdata : Word)                      -- WR_CTRL_NOP, R111
  | rdStatus                                        -- RD_STATUS, R112
  | wrStatus    (wdata : Word)                      -- WR_STATUS, R113
  | rdLen                                           -- RD_LEN, R114
  | wrLen       (wdata : Word)                      -- WR_LEN, R115
  | rdMsgcap                                        -- RD_MSGCAP, R116
  | wrMsgcap    (wdata : Word)                      -- WR_MSGCAP, R117
  | rdDigest    (k : Fin 8)                         -- RD_DIGEST, R118
  | wrDigest    (k : Fin 8) (wdata : Word)          -- WR_DIGEST, R119
  | rdMsg       (i : BitVec 29)                     -- RD_MSG, R120
  | wrMsg       (i : BitVec 29) (wdata : Word)      -- WR_MSG, R121
  | rdRsvd      (x : BitVec 29)                     -- RD_RSVD, R122
  | wrRsvd      (x : BitVec 29) (wdata : Word)      -- WR_RSVD, R123
  | stepLoad                                        -- STEP_LOAD, R98
  | stepExpand                                      -- STEP_EXPAND, R99
  | stepRound                                       -- STEP_ROUND, R100
  | stepAccum                                       -- STEP_ACCUM, R101
  | stepFinal                                       -- STEP_FINAL, R102
deriving DecidableEq, Repr

end Sys2Proof
end

