-- ==== Sys2Proof/WellFormed.lean ====
section
/-! DEFINITION. Which terms of `Instr` stand for a record of the block: the conditions that the
decode rules put on an instruction's operands (R56, R58, R62). -/

namespace Sys2Proof

/-- The word index off[30:2] of a reserved offset: 0x10..0x1C, or 0x40..0x7FFFFFFC (R40, R62). -/
def reservedIndex (x : BitVec 29) : Bool :=
  (4 ≤ x.toNat && x.toNat < 8) || 16 ≤ x.toNat

/-- The operand conditions: the CTRL write data fits its row (R58), and a reserved row names a
reserved offset (R62). Every other operand is free. -/
def Instr.wellFormed : Instr → Bool
  | .wrCtrlClear d => d.getLsbD 1
  | .wrCtrlStart d => !d.getLsbD 1 && d.getLsbD 0
  | .wrCtrlNop d   => !d.getLsbD 1 && !d.getLsbD 0
  | .rdRsvd x      => reservedIndex x
  | .wrRsvd x _    => reservedIndex x
  | .rdCtrl | .rdStatus | .rdLen | .rdMsgcap | .rdDigest _ | .rdMsg _ => true
  | .wrStatus _ | .wrLen _ | .wrMsgcap _ | .wrDigest _ _ | .wrMsg _ _ => true
  | .stepLoad | .stepExpand | .stepRound | .stepAccum | .stepFinal => true

end Sys2Proof
end

