-- ==== Sys2Proof/Decode.lean ====
section
/-! DEFINITION. Decoding and encoding (`30_encoding.md` R55 to R64). A host access decodes by R56 to
R58, for every offset and every write data; a phase code decodes by R63, and the codes that select
no step are rejected by name. `decodeBytes` reads the model's own byte form of a record (log 7). -/

namespace Sys2Proof
open Sys2Proof.Machine

/-- Why a code or a byte string selects no instruction. -/
inductive Reject where
  /-- Phase code 0b000, IDLE: the core has no step (R63, R103). -/
  | idlePhase
  /-- Phase codes 0b110 and 0b111 are unused (R63). -/
  | unusedPhase
  /-- The direction byte of a record is neither 0 (read) nor 1 (write) (R55; log 7). -/
  | badDirection
  /-- The phase byte of a record is above 7 (log 7). -/
  | badPhaseByte
  /-- The byte string is neither a one-byte phase record nor a nine-byte access record (log 7). -/
  | badLength
deriving DecidableEq, Repr

/-- The three cases of R56, in its priority order. -/
inductive Region where
  | window   (i : BitVec 29)
  | register (r : BitVec 4)
  | reserved (x : BitVec 29)
deriving DecidableEq, Repr

/-- The case of R56 that an offset falls in. -/
def regionOf (off : Word) : Region :=
  if offWindow (alignOff off) then .window (offIndex (alignOff off))
  else if offHigh (alignOff off) = 0#26 then .register (offRegister (alignOff off))
  else .reserved (offIndex (alignOff off))

/-- The read operation of register r; `off` gives the operand (R57). -/
def decodeRegisterRead (r : BitVec 4) (off : Word) : Instr :=
  if r = 0#4 then .rdCtrl
  else if r = 1#4 then .rdStatus
  else if r = 2#4 then .rdLen
  else if r = 3#4 then .rdMsgcap
  else if r.toNat < 8 then .rdRsvd (offIndex (alignOff off))
  else .rdDigest (offDigest (alignOff off))

/-- The write operation on CTRL, by wdata[1:0]: CLEAR before START (R58). -/
def decodeCtrlWrite (wdata : Word) : Instr :=
  if wdata.getLsbD 1 then .wrCtrlClear wdata
  else if wdata.getLsbD 0 then .wrCtrlStart wdata
  else .wrCtrlNop wdata

/-- The write operation of register r; `off` gives the operand (R57). -/
def decodeRegisterWrite (r : BitVec 4) (off wdata : Word) : Instr :=
  if r = 0#4 then decodeCtrlWrite wdata
  else if r = 1#4 then .wrStatus wdata
  else if r = 2#4 then .wrLen wdata
  else if r = 3#4 then .wrMsgcap wdata
  else if r.toNat < 8 then .wrRsvd (offIndex (alignOff off)) wdata
  else .wrDigest (offDigest (alignOff off)) wdata

/-- Decoding a host operation: total, no offset is illegal (R56). -/
def decodeAccess : Access → Instr
  | .read off =>
    match regionOf off with
    | .window i   => .rdMsg i
    | .register r => decodeRegisterRead r off
    | .reserved x => .rdRsvd x
  | .write off wdata =>
    match regionOf off with
    | .window i   => .wrMsg i wdata
    | .register r => decodeRegisterWrite r off wdata
    | .reserved x => .wrRsvd x wdata

/-- The phase a 3-bit code names (R63). -/
def phaseOfCode (c : BitVec 3) : Option Phase :=
  if c = 0b000#3 then some .idle
  else if c = 0b001#3 then some .load
  else if c = 0b010#3 then some .expand
  else if c = 0b011#3 then some .round
  else if c = 0b100#3 then some .accum
  else if c = 0b101#3 then some .final
  else none

/-- The 3-bit code of a phase (R63). -/
def codeOfPhase : Phase → BitVec 3
  | .idle => 0b000#3 | .load => 0b001#3 | .expand => 0b010#3
  | .round => 0b011#3 | .accum => 0b100#3 | .final => 0b101#3

/-- The step a phase selects (R63, R96, R103). -/
def stepOfPhase : Phase → Except Reject Instr
  | .idle   => .error .idlePhase
  | .load   => .ok .stepLoad
  | .expand => .ok .stepExpand
  | .round  => .ok .stepRound
  | .accum  => .ok .stepAccum
  | .final  => .ok .stepFinal

/-- Decoding a phase code (R63). -/
def decodePhase (c : BitVec 3) : Except Reject Instr :=
  match phaseOfCode c with
  | some p => stepOfPhase p
  | none   => .error .unusedPhase

/-- The decoder of the block: every code, by name where it selects nothing. -/
def decode : Code → Except Reject Instr
  | .access a => .ok (decodeAccess a)
  | .phase c  => decodePhase c

/-- The record that a byte string holds (log 7): one byte is a phase code; nine bytes are off and
wdata, each most significant byte first, and the direction byte. -/
def codeOfBytes : List Byte → Except Reject Code
  | [p] => if p.toNat < 8 then .ok (.phase (p.setWidth 3)) else .error .badPhaseByte
  | [o0, o1, o2, o3, d0, d1, d2, d3, rw] =>
    if rw = 0#8 then .ok (.access (.read (be32 o0 o1 o2 o3)))
    else if rw = 1#8 then .ok (.access (.write (be32 o0 o1 o2 o3) (be32 d0 d1 d2 d3)))
    else .error .badDirection
  | _ => .error .badLength

/-- Decoding, total on any bytes. -/
def decodeBytes (bs : List Byte) : Except Reject Instr :=
  match codeOfBytes bs with
  | .ok c    => decode c
  | .error e => .error e

/-- The bytes of an instruction whose bits are `w` as `spec/opcode_table.json` numbers them, every
bit above `nbits` zero (log 7): a phase code where `nbits` is at most 8, else off in bits 31:0,
wdata in bits 63:32 and the direction in bits 71:64. -/
def layoutTableWord (nbits w : Nat) : List Byte :=
  let v := w % 2 ^ nbits
  if nbits ≤ 8 then [BitVec.ofNat 8 v]
  else bytesBE32 (BitVec.ofNat 32 v) ++ bytesBE32 (BitVec.ofNat 32 (v / 2 ^ 32))
    ++ [BitVec.ofNat 8 (v / 2 ^ 64)]

/-- The instruction the decoder reads from a table word. -/
def decodeTableWord (nbits w : Nat) : Option Instr :=
  match decodeBytes (layoutTableWord nbits w) with
  | .ok i    => some i
  | .error _ => none

/-- The access with offset bits 1:0 cleared, which acts as the access itself (R39). -/
def Access.aligned : Access → Access
  | .read off        => .read (alignOff off)
  | .write off wdata => .write (alignOff off) wdata

/-! ### The encoder -/

/-- The offset of the window word i: off[31] = 1, off[30:2] = i (R40, R41). -/
def windowOff (i : BitVec 29) : Word := 1#1 ++ i ++ 0#2

/-- The offset with off[31] = 0 and off[30:2] = x (R40). -/
def lowOff (x : BitVec 29) : Word := 0#1 ++ x ++ 0#2

/-- The offset of DIGEST k, 0x20 + 4k (R40). -/
def digestOff (k : Fin 8) : Word := 1#27 ++ (BitVec.ofFin k : BitVec 3) ++ 0#2

/-- The code of an instruction, with the ignored offset bits 1:0 zero (R40, R57, R58, R63). -/
def encode : Instr → Code
  | .rdCtrl        => .access (.read 0x00#32)
  | .wrCtrlClear d => .access (.write 0x00#32 d)
  | .wrCtrlStart d => .access (.write 0x00#32 d)
  | .wrCtrlNop d   => .access (.write 0x00#32 d)
  | .rdStatus      => .access (.read 0x04#32)
  | .wrStatus d    => .access (.write 0x04#32 d)
  | .rdLen         => .access (.read 0x08#32)
  | .wrLen d       => .access (.write 0x08#32 d)
  | .rdMsgcap      => .access (.read 0x0C#32)
  | .wrMsgcap d    => .access (.write 0x0C#32 d)
  | .rdDigest k    => .access (.read (digestOff k))
  | .wrDigest k d  => .access (.write (digestOff k) d)
  | .rdMsg i       => .access (.read (windowOff i))
  | .wrMsg i d     => .access (.write (windowOff i) d)
  | .rdRsvd x      => .access (.read (lowOff x))
  | .wrRsvd x d    => .access (.write (lowOff x) d)
  | .stepLoad      => .phase (codeOfPhase .load)
  | .stepExpand    => .phase (codeOfPhase .expand)
  | .stepRound     => .phase (codeOfPhase .round)
  | .stepAccum     => .phase (codeOfPhase .accum)
  | .stepFinal     => .phase (codeOfPhase .final)

/-- The byte form of a code (log 7); a read's write-data bytes are zero. -/
def bytesOfCode : Code → List Byte
  | .access (.read off)        => bytesBE32 off ++ bytesBE32 0#32 ++ [0#8]
  | .access (.write off wdata) => bytesBE32 off ++ bytesBE32 wdata ++ [1#8]
  | .phase c                   => [c.setWidth 8]

/-- The byte form of an instruction. -/
def encodeBytes (i : Instr) : List Byte := bytesOfCode (encode i)

end Sys2Proof
end

