-- ==== Sys2Proof/Config.lean ====
section
/-! DEFINITION. What an implementation fixes and the spec leaves open: the capacity of the message
buffer (R7, R8) and the bytes of the buffer that the host has not written since reset (R35, R148).
Neither has a body, so no proof can see a value. The tables K and IV stand in
`Machine/Constants.lean`, where a repair may mend them. -/

namespace Sys2Proof

/-- A legal value of MSG_CAP: a multiple of 4 with 4 <= MSG_CAP <= 2^31 (R8), held as the number of
buffer words less one, so that every value of the type is a legal capacity. -/
structure MsgCap where
  wordsLessOne : BitVec 29
deriving DecidableEq, Repr, Inhabited

/-- MSG_CAP in bytes (R8). -/
def MsgCap.bytes (c : MsgCap) : Nat := 4 * (c.wordsLessOne.toNat + 1)

namespace Config

/-- MSG_CAP of the instance that `State.reset` describes: the spec's open parameter (R7, R8; log 1). -/
opaque msgCap : MsgCap

/-- The free byte that the buffer holds at an address the host has not written since the reset
number `draw` (R35, R141, R148; log 2). -/
opaque unwrittenByte (draw address : Nat) : Byte

end Config
end Sys2Proof
end

