-- ==== Sys2Proof/Machine/State.lean ====
section
/-! DEFINITION. The state of one instance of the block (`10_state.md` R16 to R35) as plain data, the
four fields the model adds, the reasons a step can stop, and the state after reset (R141). -/

namespace Sys2Proof.Machine

/-- The known bytes of the message buffer: the bytes written since reset, addresses strictly rising
(`Memory.wf`). An address that is not listed holds no known byte (R35; log 2). -/
abbrev Memory := List Host.Cell

/-- One transition that the outside chooses: a host access, a turn given to the core, or an
assertion of the reset input (R15, R141; log 4). -/
inductive Turn where
  | access (a : Access)
  | core
  | reset
deriving DecidableEq, Repr

/-- The reasons a step can fault. The block itself has none (R126, R127, R130). -/
inductive Fault where
  /-- Raised by the five sequencer-step meanings where `phase` does not select that step: no such
  transition exists (R63, R96). Safe: it stops where the machine has no step, and `step` never asks
  for one (log 8). -/
  | stepNotEnabled
deriving DecidableEq, Repr

/-- The reasons an instruction is refused. -/
inductive Refusal where
  /-- Raised by an arm of `exec` whose instruction has no meaning yet; safe. No arm does. -/
  | notModelled (mnemonic : String)
deriving DecidableEq, Repr

/-- The state of one instance: the twelve elements of R16, then the model's own four fields. -/
structure State where
  /-- HS[0..7], the HashState (R17). -/
  hs      : Words8
  /-- V[0..7], the working variables a..h (R18). -/
  v       : Words8
  /-- W[0..63], the message schedule (R19). -/
  w       : Schedule
  /-- The sequencer's control state (R20). -/
  phase   : Phase
  /-- The schedule and round index, held in 6 bits (R21). -/
  t       : Fin 64
  /-- The index of the block being processed, a natural number (R22; log 13). -/
  j       : Nat
  /-- STATUS.DONE (R29). -/
  done    : Bool
  /-- STATUS.ERR_BUSY, sticky (R30). -/
  errBusy : Bool
  /-- STATUS.ERR_LEN, sticky (R31). -/
  errLen  : Bool
  /-- LEN, the message length in bytes (R32). -/
  len     : Word
  /-- DIGEST[0..7] (R34). -/
  digest  : Words8
  /-- MSG, the message buffer (R35). -/
  msg     : Memory
  /-- The model's own: the parameter MSG_CAP of this instance, written by no transition (R7, R8,
  R33; log 1). -/
  msgCap  : MsgCap
  /-- The model's own: the number of resets so far, which selects the draw of MSG (R141; log 2). -/
  draw    : Nat
  /-- The model's own: the word the latest host access returned, none for a write (R55; log 6). -/
  rdata   : Option Word
  /-- The model's own: the transitions to come that the outside has chosen, in order (R15; log 4). -/
  turns   : List Turn
deriving DecidableEq, Repr

/-- The machine right after reset (R141, R142; the table of `10_state.md` section 7). HS, V and W
are unspecified by the spec and zero here (log 3). -/
def State.reset : State where
  hs      := Vector.replicate 8 0#32
  v       := Vector.replicate 8 0#32
  w       := Vector.replicate 64 0#32
  phase   := .idle
  t       := 0
  j       := 0
  done    := false
  errBusy := false
  errLen  := false
  len     := 0#32
  digest  := Vector.replicate 8 0#32
  msg     := []
  msgCap  := Config.msgCap
  draw    := 0
  rdata   := none
  turns   := []

end Sys2Proof.Machine
end

