-- ==== Sys2Proof/Machine/Flags.lean ====
section
/-! DEFINITION. The STATUS bits: how each is read (`10_state.md` R27 to R31) and the operations that
set or clear them. `State.raiseErrBusy` and `State.raiseErrLen` are the block's whole error entry: an
error sets its bit and nothing else (`60_exceptions.md` R127, R130). Arithmetic sets no bit (R128). -/

namespace Sys2Proof.Machine

/-- STATUS.BUSY, which is not stored: 1 exactly when phase != IDLE (R28). -/
def State.busy (s : State) : Bool := s.phase != .idle

/-- The STATUS word: zext_32(err_len || err_busy || done || BUSY) (R27). -/
def State.statusWord (s : State) : Word :=
  (BitVec.ofBool s.errLen ++ BitVec.ofBool s.errBusy ++ BitVec.ofBool s.done
    ++ BitVec.ofBool s.busy).setWidth 32

/-- The error ERR_BUSY: the sticky bit and nothing else (R30, R127). -/
def State.raiseErrBusy (s : State) : State := { s with errBusy := true }

/-- The error ERR_LEN: the sticky bit; `done <- 0` is the START's own (R31, R110, R127). -/
def State.raiseErrLen (s : State) : State := { s with errLen := true }

/-- `done <- 0` (R29, R110). -/
def State.clearDone (s : State) : State := { s with done := false }

end Sys2Proof.Machine
end

