-- ==== Sys2Proof/Machine/Ops.lean ====
section
/-! DEFINITION. The shared operations over the message buffer, the port and the sequencing state. The
block takes no trap (`60_exceptions.md` R130), so there is no exception entry or return here: the
error bits of `Flags.lean` are all an error does. -/

namespace Sys2Proof.Machine

/-! ### The message buffer -/

/-- The canonical form of the buffer: addresses strictly rising, so that no address is listed twice
and equal buffers are equal lists (log 2). -/
abbrev Memory.wf (m : Memory) : Prop := m.Pairwise (fun x y => x.1 < y.1)

/-- The known byte at an address, none where the host has written nothing since reset. -/
def Memory.read? : Memory → Nat → Option Byte
  | [], _ => none
  | (b, x) :: m, a => if a = b then some x else Memory.read? m a

/-- Writes one byte and keeps the canonical form. -/
def Memory.write : Memory → Nat → Byte → Memory
  | [], a, y => [(a, y)]
  | (b, x) :: m, a, y =>
    if a < b then (a, y) :: (b, x) :: m
    else if a = b then (a, y) :: m
    else (b, x) :: Memory.write m a y

/-- `MemWrite(a, 4, v)`: bytesBE32(v) at a .. a + 3 (R14, R41). -/
def Memory.writeWord (m : Memory) (a : Nat) (v : Word) : Memory :=
  (((m.write a (lane v 0)).write (a + 1) (lane v 1)).write (a + 2) (lane v 2)).write (a + 3)
    (lane v 3)

/-- `MemRead(a, 1)`: MSG[a], a free value where nothing was written since reset (R14, R35; log 2). -/
def State.msgByte (s : State) (a : Nat) : Byte :=
  match s.msg.read? a with
  | some b => b
  | none   => Config.unwrittenByte s.draw a

/-- `4*i + 4 <= MSG_CAP`: window word i is a buffer word (R41, R56). -/
def State.inCapacity (s : State) (i : BitVec 29) : Bool := 4 * i.toNat + 4 ≤ s.msgCap.bytes

/-- The window word i: BE32(MSG[4i], MSG[4i+1], MSG[4i+2], MSG[4i+3]) (R41, R120). -/
def State.msgWord (s : State) (i : BitVec 29) : Word :=
  be32 (s.msgByte (4 * i.toNat)) (s.msgByte (4 * i.toNat + 1)) (s.msgByte (4 * i.toNat + 2))
    (s.msgByte (4 * i.toNat + 3))

/-- `MemWrite(4*i, 4, v)` on the window word i (R41, R121). -/
def State.writeMsgWord (s : State) (i : BitVec 29) (v : Word) : State :=
  { s with msg := s.msg.writeWord (4 * i.toNat) v }

/-! ### The port -/

/-- A read returns the word v and changes nothing else (R47, R55; log 6). -/
def State.readReturns (s : State) (v : Word) : State := { s with rdata := some v }

/-- A write returns nothing (R55; log 6). -/
def State.writeReturns (s : State) : State := { s with rdata := none }

/-- `LEN <- v` (R32, R115). -/
def State.setLen (s : State) (v : Word) : State := { s with len := v }

/-- The turns still to come. -/
def State.withTurns (s : State) (ts : List Turn) : State := { s with turns := ts }

/-! ### Sequencing -/

/-- The begin-run action (R97). -/
def State.beginRun (s : State) : State := { s with hs := iv, j := 0, t := 0, phase := .load }

/-- What a CLEAR does (R109, R144). -/
def State.clearRun (s : State) : State :=
  { s with phase := .idle, t := 0, j := 0, done := false, errBusy := false, errLen := false }

/-- The reset input, in any state: every element takes its reset value, MSG is drawn anew, and a run
in progress is abandoned (R141, R144; log 17). -/
def State.resetInput (s : State) : State :=
  { State.reset with msgCap := s.msgCap, draw := s.draw + 1, turns := s.turns }

end Sys2Proof.Machine
end

