-- ==== Sys2Proof/Machine/HostOps.lean ====
section
/-! DEFINITION. The sixteen host operations (`47_host_operations.md` R108 to R123), one definition a
row. Each is atomic (R46), none is privileged (R134), none traps or faults (R127), and a read has no
side effect (R47): it leaves the word it returns in `rdata`. -/

namespace Sys2Proof.Machine

/-! ### CTRL -/

/-- RD_CTRL: returns 0 in every state (R108). -/
def execRdCtrl (s : State) : Host.Outcome State Fault Refusal :=
  .next (s.readReturns 0x00000000#32)

/-- WR_CTRL_CLEAR: aborts and clears, in every phase, whatever START is (R109). -/
def execWrCtrlClear (_wdata : Word) (s : State) : Host.Outcome State Fault Refusal :=
  .next s.clearRun.writeReturns

/-- What a START does: busy is checked before the length, and DONE is cleared even when the length is
then rejected (R110, R131). -/
def State.startRun (s : State) : State :=
  if s.busy then s.raiseErrBusy
  else if s.len.toNat > s.msgCap.bytes then s.clearDone.raiseErrLen
  else s.clearDone.beginRun

/-- WR_CTRL_START (R110). -/
def execWrCtrlStart (_wdata : Word) (s : State) : Host.Outcome State Fault Refusal :=
  .next s.startRun.writeReturns

/-- WR_CTRL_NOP: nothing changes (R111). -/
def execWrCtrlNop (_wdata : Word) (s : State) : Host.Outcome State Fault Refusal :=
  .next s.writeReturns

/-! ### STATUS, LEN, MSGCAP -/

/-- RD_STATUS (R112). -/
def execRdStatus (s : State) : Host.Outcome State Fault Refusal :=
  .next (s.readReturns s.statusWord)

/-- WR_STATUS: ignored (R113). -/
def execWrStatus (_wdata : Word) (s : State) : Host.Outcome State Fault Refusal :=
  .next s.writeReturns

/-- RD_LEN (R114). -/
def execRdLen (s : State) : Host.Outcome State Fault Refusal :=
  .next (s.readReturns s.len)

/-- What a LEN write does (R115). -/
def State.writeLen (s : State) (wdata : Word) : State :=
  if s.busy then s.raiseErrBusy else s.setLen wdata

/-- WR_LEN (R115). -/
def execWrLen (wdata : Word) (s : State) : Host.Outcome State Fault Refusal :=
  .next (s.writeLen wdata).writeReturns

/-- RD_MSGCAP: the parameter as a 32-bit value (R33, R116). -/
def execRdMsgcap (s : State) : Host.Outcome State Fault Refusal :=
  .next (s.readReturns (BitVec.ofNat 32 s.msgCap.bytes))

/-- WR_MSGCAP: ignored (R117). -/
def execWrMsgcap (_wdata : Word) (s : State) : Host.Outcome State Fault Refusal :=
  .next s.writeReturns

/-! ### DIGEST -/

/-- RD_DIGEST (R118). -/
def execRdDigest (k : Fin 8) (s : State) : Host.Outcome State Fault Refusal :=
  .next (s.readReturns (s.digest.get k))

/-- WR_DIGEST: ignored (R119). -/
def execWrDigest (_k : Fin 8) (_wdata : Word) (s : State) : Host.Outcome State Fault Refusal :=
  .next s.writeReturns

/-! ### The MSG window -/

/-- The word a read of window word i returns: 0 beyond capacity (R120). -/
def State.windowWord (s : State) (i : BitVec 29) : Word :=
  if s.inCapacity i then s.msgWord i else 0x00000000#32

/-- RD_MSG (R120). -/
def execRdMsg (i : BitVec 29) (s : State) : Host.Outcome State Fault Refusal :=
  .next (s.readReturns (s.windowWord i))

/-- What a write of window word i does: capacity is checked before busy (R121, R131). -/
def State.writeWindow (s : State) (i : BitVec 29) (wdata : Word) : State :=
  if !s.inCapacity i then s
  else if s.busy then s.raiseErrBusy
  else s.writeMsgWord i wdata

/-- WR_MSG (R121). -/
def execWrMsg (i : BitVec 29) (wdata : Word) (s : State) : Host.Outcome State Fault Refusal :=
  .next (s.writeWindow i wdata).writeReturns

/-! ### Reserved offsets -/

/-- RD_RSVD: returns 0 (R122). -/
def execRdRsvd (_x : BitVec 29) (s : State) : Host.Outcome State Fault Refusal :=
  .next (s.readReturns 0x00000000#32)

/-- WR_RSVD: ignored, no error bit (R123). -/
def execWrRsvd (_x : BitVec 29) (_wdata : Word) (s : State) : Host.Outcome State Fault Refusal :=
  .next s.writeReturns

end Sys2Proof.Machine
end

