-- ==== Sys2Proof/Machine/Compression.lean ====
section
/-! DEFINITION. The CompressionRound (`44_compression_round.md` R83 to R91): the mixing functions, one
round and the compression of one block, as pure functions. -/

namespace Sys2Proof.Machine

/-- Sigma1 (R83). -/
def bigSigma1 (e : Word) : Word := rotr e 6 ^^^ rotr e 11 ^^^ rotr e 25

/-- Sigma0 (R84). -/
def bigSigma0 (a : Word) : Word := rotr a 2 ^^^ rotr a 13 ^^^ rotr a 22

/-- Ch(e, f, g) (R85). -/
def ch (e f g : Word) : Word := (e &&& f) ^^^ (~~~e &&& g)

/-- Maj(a, b, c) (R86). -/
def maj (a b c : Word) : Word := (a &&& b) ^^^ (a &&& c) ^^^ (b &&& c)

/-- T1 of round t, with V = (a, .., h) and the schedule word (R87). -/
def roundT1 (t : Nat) (v : Words8) (wt : Word) : Word :=
  v[7] + bigSigma1 v[4] + ch v[4] v[5] v[6] + kConst t + wt

/-- T2 (R88). -/
def roundT2 (v : Words8) : Word := bigSigma0 v[0] + maj v[0] v[1] v[2]

/-- round(t, V, w): the simultaneous update of R89. -/
def roundStep (t : Nat) (v : Words8) (wt : Word) : Words8 :=
  #v[roundT1 t v wt + roundT2 v, v[0], v[1], v[2], v[3] + roundT1 t v wt, v[4], v[5], v[6]]

/-- HS + V, word by word modulo 2^32 (R90, R101). -/
def addWords (h v : Words8) : Words8 :=
  #v[h[0] + v[0], h[1] + v[1], h[2] + v[2], h[3] + v[3],
    h[4] + v[4], h[5] + v[5], h[6] + v[6], h[7] + v[7]]

/-- The working variables after rounds 0 .. n - 1 (R90). -/
def roundsUpTo (hs : Words8) (w : Nat → Word) : Nat → Words8
  | 0     => hs
  | n + 1 => roundStep n (roundsUpTo hs w n) (w n)

/-- compress(hs, w) (R90). -/
def compress (hs : Words8) (w : Nat → Word) : Words8 := addWords hs (roundsUpTo hs w 64)

end Sys2Proof.Machine
end

