-- ==== Sys2Proof/Machine/Padder.lean ====
section
/-! DEFINITION. The Padder and the BlockParser as pure functions (`41_padder.md` R67 to R74,
`42_block_parser.md` R75 to R77). A message of L bytes is given by its byte function `m`, read only
below L (R54, R70), as the combinational padder of the hardware reads MSG (R74). -/

namespace Sys2Proof.Machine

/-- padlen(L), every byte appended (R68). -/
def padLen (L : Nat) : Nat :=
  if 64 - L % 64 - 1 ≥ 8 then 64 - L % 64 else 128 - L % 64

/-- T(L), the padded length (R69). -/
def padTotal (L : Nat) : Nat := L + padLen L

/-- N(L), the number of blocks (R69). -/
def blockCount (L : Nat) : Nat := padTotal L / 64

/-- The length field as a number, (8 * L) mod 2^64 (R71). -/
def lengthField (L : Nat) : BitVec 64 := BitVec.ofNat 64 (8 * L)

/-- P(m, L, i), byte i of the PaddedMessage (R70); zero past its end, where R70 gives no byte
(log 11). -/
def padByte (m : Nat → Byte) (L i : Nat) : Byte :=
  if i < L then m i
  else if i = L then 0x80#8
  else if i < padTotal L - 8 then 0x00#8
  else if i < padTotal L then byteBE64 (lengthField L) (i - (padTotal L - 8))
  else 0x00#8

/-- pad(m) (R72). -/
def padMessage (m : List Byte) : List Byte :=
  (List.range (padTotal m.length)).map (padByte (fun i => m.getD i 0#8) m.length)

/-- block(p, j), the 64 bytes p[64j] .. p[64j + 63] (R75). -/
def blockOf (p : List Byte) (j : Nat) : List Byte := (p.drop (64 * j)).take 64

/-- Word i of block j of the padded message (R76). -/
def blockWord (m : Nat → Byte) (L j i : Nat) : Word :=
  be32 (padByte m L (64 * j + 4 * i)) (padByte m L (64 * j + 4 * i + 1))
    (padByte m L (64 * j + 4 * i + 2)) (padByte m L (64 * j + 4 * i + 3))

end Sys2Proof.Machine
end

