-- ==== Sys2Proof/Machine/Scheduler.lean ====
section
/-! DEFINITION. The MessageScheduler (`43_message_scheduler.md` R78 to R82): the two mixing functions,
the word one STEP_EXPAND computes, and the schedule of a block as a pure function. -/

namespace Sys2Proof.Machine

/-- sigma0 (R78). -/
def smallSigma0 (x : Word) : Word := rotr x 7 ^^^ rotr x 18 ^^^ shr x 3

/-- sigma1 (R79). -/
def smallSigma1 (x : Word) : Word := rotr x 17 ^^^ rotr x 19 ^^^ shr x 10

/-- The sum of R81, from w[t-2], w[t-7], w[t-15] and w[t-16]. -/
def expandSum (w2 w7 w15 w16 : Word) : Word := smallSigma1 w2 + w7 + smallSigma0 w15 + w16

/-- The next schedule word W[t] (R99). The index is held in 6 bits, so t - 2 is taken in 6 bits; it
does not wrap where 16 <= t (log 10). -/
def expandWord (w : Schedule) (t : Fin 64) : Word :=
  expandSum (w.get (t - 2)) (w.get (t - 7)) (w.get (t - 15)) (w.get (t - 16))

/-- w[t] from the words before it, `prev = [w[0], ..., w[t-1]]` (R80, R81). -/
def nextScheduleWord (b : Nat → Word) (prev : List Word) (t : Nat) : Word :=
  if t < 16 then b t
  else expandSum (prev.getD (t - 2) 0#32) (prev.getD (t - 7) 0#32) (prev.getD (t - 15) 0#32)
    (prev.getD (t - 16) 0#32)

/-- The first n schedule words of the block whose words are b 0 .. b 15. -/
def scheduleUpTo (b : Nat → Word) : Nat → List Word
  | 0     => []
  | t + 1 => scheduleUpTo b t ++ [nextScheduleWord b (scheduleUpTo b t) t]

/-- w[t] of the block whose words are b 0 .. b 15 (R80, R81). -/
def scheduleWord (b : Nat → Word) (t : Nat) : Word := nextScheduleWord b (scheduleUpTo b t) t

end Sys2Proof.Machine
end

