-- ==== Sys2Proof/Machine/Digest.lean ====
section
/-! DEFINITION. The DigestAssembler and the digest function (`45_digest_assembler.md` R92 to R95). -/

namespace Sys2Proof.Machine

/-- The HashState after the first n blocks of the message, in block order from IV (R91, R93). -/
def hashBlocks (m : Nat → Byte) (L : Nat) : Nat → Words8
  | 0     => iv
  | n + 1 => compress (hashBlocks m L n) (scheduleWord (blockWord m L n))

/-- The final HashState, the eight words of the digest (R93). -/
def digestWords (m : Nat → Byte) (L : Nat) : Words8 := hashBlocks m L (blockCount L)

/-- assemble(hs): the 32 bytes of the eight words, big-endian, in state order (R92). -/
def assemble (hs : Words8) : List Byte := hs.toList.flatMap bytesBE32

/-- digest(m) (R93). -/
def digestOf (m : List Byte) : List Byte :=
  assemble (digestWords (fun i => m.getD i 0#8) m.length)

end Sys2Proof.Machine
end

