-- ==== Sys2Proof/Machine/Sequencer.lean ====
section
/-! DEFINITION. The five sequencer steps (`46_sequencer.md` R98 to R102). Each has the state it leaves
and, over it, its meaning: the step where `phase` selects it; where it does not, no such transition
exists and the meaning is stuck under the name `stepNotEnabled` (R63, R96; log 8). All writes of a
step take effect together (R14). -/

namespace Sys2Proof.Machine

/-- W[0..15] of block j, the other words as they were (R98). -/
def State.loadedSchedule (s : State) : Schedule :=
  Vector.ofFn fun i : Fin 64 =>
    if i.val < 16 then blockWord s.msgByte s.len.toNat s.j i.val else s.w.get i

/-- After STEP_LOAD (R98). -/
def State.afterLoad (s : State) : State :=
  { s with w := s.loadedSchedule, v := s.hs, t := 16, phase := .expand }

/-- STEP_LOAD (R98). -/
def execStepLoad (s : State) : Host.Outcome State Fault Refusal :=
  if s.phase = .load then .next s.afterLoad else .fault .stepNotEnabled

/-- The index and phase after a step of the loop over t that ends in phase `p` at t = 63 (R99,
R100). -/
def State.advance (s : State) (p : Phase) : State :=
  if s.t = 63 then { s with t := 0, phase := p } else { s with t := s.t + 1 }

/-- After STEP_EXPAND (R99). -/
def State.afterExpand (s : State) : State :=
  { s with w := s.w.set s.t (expandWord s.w s.t) }.advance .round

/-- STEP_EXPAND (R99). -/
def execStepExpand (s : State) : Host.Outcome State Fault Refusal :=
  if s.phase = .expand then .next s.afterExpand else .fault .stepNotEnabled

/-- After STEP_ROUND (R100). -/
def State.afterRound (s : State) : State :=
  { s with v := roundStep s.t.val s.v (s.w.get s.t) }.advance .accum

/-- STEP_ROUND (R100). -/
def execStepRound (s : State) : Host.Outcome State Fault Refusal :=
  if s.phase = .round then .next s.afterRound else .fault .stepNotEnabled

/-- After STEP_ACCUM (R101). -/
def State.afterAccum (s : State) : State :=
  if s.j + 1 < blockCount s.len.toNat then
    { s with hs := addWords s.hs s.v, j := s.j + 1, phase := .load }
  else { s with hs := addWords s.hs s.v, phase := .final }

/-- STEP_ACCUM (R101). -/
def execStepAccum (s : State) : Host.Outcome State Fault Refusal :=
  if s.phase = .accum then .next s.afterAccum else .fault .stepNotEnabled

/-- After STEP_FINAL (R102). -/
def State.afterFinal (s : State) : State :=
  { s with digest := s.hs, done := true, phase := .idle }

/-- STEP_FINAL (R102). -/
def execStepFinal (s : State) : Host.Outcome State Fault Refusal :=
  if s.phase = .final then .next s.afterFinal else .fault .stepNotEnabled

end Sys2Proof.Machine
end

