-- ==== Sys2Proof/Machine/Dispatch.lean ====
section
/-! DEFINITION. One arm per instruction, one direct call of its meaning. -/

namespace Sys2Proof.Machine

def exec (i : Instr) (s : State) : Host.Outcome State Fault Refusal :=
  match i with
  | .rdCtrl => Sys2Proof.Machine.execRdCtrl s
  | .wrCtrlClear wdata => Sys2Proof.Machine.execWrCtrlClear wdata s
  | .wrCtrlStart wdata => Sys2Proof.Machine.execWrCtrlStart wdata s
  | .wrCtrlNop wdata => Sys2Proof.Machine.execWrCtrlNop wdata s
  | .rdStatus => Sys2Proof.Machine.execRdStatus s
  | .wrStatus wdata => Sys2Proof.Machine.execWrStatus wdata s
  | .rdLen => Sys2Proof.Machine.execRdLen s
  | .wrLen wdata => Sys2Proof.Machine.execWrLen wdata s
  | .rdMsgcap => Sys2Proof.Machine.execRdMsgcap s
  | .wrMsgcap wdata => Sys2Proof.Machine.execWrMsgcap wdata s
  | .rdDigest k => Sys2Proof.Machine.execRdDigest k s
  | .wrDigest k wdata => Sys2Proof.Machine.execWrDigest k wdata s
  | .rdMsg n => Sys2Proof.Machine.execRdMsg n s
  | .wrMsg n wdata => Sys2Proof.Machine.execWrMsg n wdata s
  | .rdRsvd x => Sys2Proof.Machine.execRdRsvd x s
  | .wrRsvd x wdata => Sys2Proof.Machine.execWrRsvd x wdata s
  | .stepLoad => Sys2Proof.Machine.execStepLoad s
  | .stepExpand => Sys2Proof.Machine.execStepExpand s
  | .stepRound => Sys2Proof.Machine.execStepRound s
  | .stepAccum => Sys2Proof.Machine.execStepAccum s
  | .stepFinal => Sys2Proof.Machine.execStepFinal s

end Sys2Proof.Machine
end

