-- ==== Sys2Proof/Machine/Turns.lean ====
section
/-! DEFINITION. One transition of the block (`00_scope.md` R15): a host access, a core step or the
reset input. Which one comes next is the head of `turns`, any list of them being allowed (log 4). -/

namespace Sys2Proof.Machine

/-- The core's turn: the step `phase` selects, and nothing in IDLE, where the core is quiescent and
has no step (R63, R96, R103; log 5). -/
def coreTurn (s : State) : Host.Outcome State Fault Refusal :=
  match decodePhase (codeOfPhase s.phase) with
  | .ok i    => exec i s
  | .error _ => .next s

/-- One transition of the given kind (R15, R141). -/
def takeTurn (u : Turn) (s : State) : Host.Outcome State Fault Refusal :=
  match u with
  | .access a => exec (decodeAccess a) s
  | .core     => coreTurn s
  | .reset    => .next s.resetInput

/-- The transition the state selects: the first of `turns`, or the core's own step when the outside
has chosen nothing more (R106; log 5). -/
def nextTransition (s : State) : Host.Outcome State Fault Refusal :=
  match s.turns with
  | []      => coreTurn s
  | u :: us => takeTurn u (s.withTurns us)

/-- A finite interleaving: the turns of a list, one after another (R15, R49, R152). -/
def takeTurns : List Turn → State → Host.Outcome State Fault Refusal
  | [], s => .next s
  | u :: us, s =>
    match takeTurn u s with
    | .next s'   => takeTurns us s'
    | .fault f   => .fault f
    | .refused r => .refused r

/-- The state in which the next transition is the instruction of a code: a host access is put before
the turns to come; a sequencer step needs its phase and a turn of the core (log 9). -/
def State.withFetchCode (s : State) (c : Code) : State :=
  match c with
  | .access a => s.withTurns (.access a :: s.turns)
  | .phase p  =>
    match phaseOfCode p with
    | some q => { s with phase := q }.withTurns (.core :: s.turns)
    | none   => s

end Sys2Proof.Machine
end

