-- ==== Sys2Proof/Machine/Step.lean ====
section
/-! DEFINITION. The step of the machine, and the placing of an instruction where the next step runs
it. Both only call what `Turns.lean` and `Decode.lean` hold. -/

namespace Sys2Proof.Machine

/-- One transition of the block (R15). -/
def step (s : State) : Host.Outcome State Fault Refusal := nextTransition s

/-- The state s with the instruction of a table word placed so that the next step runs exactly it. -/
def State.withFetchWord (s : State) (nbits w : Nat) : State :=
  match codeOfBytes (layoutTableWord nbits w) with
  | .ok c    => s.withFetchCode c
  | .error _ => s

end Sys2Proof.Machine
end

