-- ==== Sys2Proof/Machine/HostProgram.lean ====
section
/-! DEFINITION. The host's side: the program notation of `30_encoding.md` R65 and the expansions of its
pseudo-instructions, R66. None of it is an operation of the block: a line issues one access of R55, or
it is a branch of the host's own that issues none. A label is the number of the line it names, and a
host variable is a number. -/

namespace Sys2Proof.Machine

/-! ### The offsets that the register names stand for (R40, R65) -/

def ctrlOff : Word := 0x00#32
def statusOff : Word := 0x04#32
def lenOff : Word := 0x08#32
def msgcapOff : Word := 0x0C#32

/-- `MSGWORD(i)` = 0x80000000 + 4i (R65). DESIGN CHOICE (log 19): for i >= 2^29 that is no 32-bit
offset, the spec gives none, and i is taken modulo 2^29. -/
def msgwordOff (i : Nat) : Word := windowOff (BitVec.ofNat 29 i)

/-- The data of a `wr` line: a number or a host variable (R65). -/
inductive HostValue where
  | lit (d : Word)
  | var (x : Nat)
deriving DecidableEq, Repr

/-- One line of a host program (R65). -/
inductive HostLine where
  /-- `rd OFF -> v`; `-> v` may be omitted. -/
  | rd (off : Word) (dest : Option Nat)
  /-- `wr OFF, DATA`. -/
  | wr (off : Word) (data : HostValue)
  /-- `if (v & MASK) != 0 goto NAME`. -/
  | gotoIfSet (x : Nat) (mask : Word) (target : Nat)
  /-- `if (v & MASK) == 0 goto NAME`. -/
  | gotoIfClear (x : Nat) (mask : Word) (target : Nat)
deriving DecidableEq, Repr

/-- A host: its program, the line it is at, and its variables, latest binding first. -/
structure HostAgent where
  lines : List HostLine
  at_   : Nat
  vars  : List (Nat × Word)
deriving DecidableEq, Repr

/-- The value of a host variable; zero before the program binds it, where R65 gives none (log 18). -/
def HostAgent.varValue (h : HostAgent) (x : Nat) : Word :=
  match h.vars.lookup x with
  | some d => d
  | none   => 0#32

/-- The data of a `wr` line. -/
def HostAgent.value (h : HostAgent) : HostValue → Word
  | .lit d => d
  | .var x => h.varValue x

/-- The host after a line that ends at the next one. -/
def HostAgent.nextLine (h : HostAgent) : HostAgent := { h with at_ := h.at_ + 1 }

/-- The host after a branch. -/
def HostAgent.branch (h : HostAgent) (taken : Bool) (target : Nat) : HostAgent :=
  if taken then { h with at_ := target } else h.nextLine

/-- The host after a read whose returned word is in `rdata`. -/
def HostAgent.bind (h : HostAgent) (dest : Option Nat) (rdata : Option Word) : HostAgent :=
  match dest, rdata with
  | some x, some d => { h.nextLine with vars := (x, d) :: h.vars }
  | _, _           => h.nextLine

/-- One line of the host against the block: an access, applied atomically, or a host-side branch that
leaves the block alone (R65, R49). A host past its last line does nothing. -/
def HostAgent.turn (h : HostAgent) (s : State) : Host.Outcome (HostAgent × State) Fault Refusal :=
  match h.lines[h.at_]? with
  | none => .next (h, s)
  | some (.rd off dest) =>
    match takeTurn (.access (.read off)) s with
    | .next s'   => .next (h.bind dest s'.rdata, s')
    | .fault f   => .fault f
    | .refused r => .refused r
  | some (.wr off data) =>
    match takeTurn (.access (.write off (h.value data))) s with
    | .next s'   => .next (h.nextLine, s')
    | .fault f   => .fault f
    | .refused r => .refused r
  | some (.gotoIfSet x mask target) => .next (h.branch (h.varValue x &&& mask != 0#32) target, s)
  | some (.gotoIfClear x mask target) => .next (h.branch (h.varValue x &&& mask == 0#32) target, s)

/-! ### Pseudo-instructions -/

/-- `start` (R66). -/
def pseudoStart : List HostLine := [.wr ctrlOff (.lit 0x00000001#32)]

/-- `clear` (R66). -/
def pseudoClear : List HostLine := [.wr ctrlOff (.lit 0x00000002#32)]

/-- `setlen L` (R66). -/
def pseudoSetlen (d : Word) : List HostLine := [.wr lenOff (.lit d)]

/-- `msgw i, V` (R66). -/
def pseudoMsgw (i : Nat) (d : Word) : List HostLine := [.wr (msgwordOff i) (.lit d)]

/-- Word i of a byte string, each missing byte taken as 0x00 (R66). -/
def paddedWord (b : List Byte) (i : Nat) : Word :=
  be32 (b.getD (4 * i) 0#8) (b.getD (4 * i + 1) 0#8) (b.getD (4 * i + 2) 0#8)
    (b.getD (4 * i + 3) 0#8)

/-- The number of buffer words that hold L bytes, ceil(L / 4) (R66). -/
def wordCount (L : Nat) : Nat := (L + 3) / 4

/-- `loadmsg B` (R66). DESIGN CHOICE (log 19): above 2^31 bytes a word index is taken modulo 2^29, as in
`msgwordOff`, and from 2^32 bytes on the length is taken modulo 2^32; R66 is silent there. -/
def pseudoLoadmsg (b : List Byte) : List HostLine :=
  (List.range (wordCount b.length)).flatMap (fun i => pseudoMsgw i (paddedWord b i))
    ++ pseudoSetlen (BitVec.ofNat 32 b.length)

/-- `wait -> s`, standing at line `label` (R66). -/
def pseudoWait (label x : Nat) : List HostLine :=
  [.rd statusOff (some x), .gotoIfSet x 0x1#32 label]

/-- `rddigest -> d0..d7`, the variables d0 .. d0 + 7 (R66). -/
def pseudoRddigest (d0 : Nat) : List HostLine :=
  (List.finRange 8).map fun k => .rd (digestOff k) (some (d0 + k.val))

/-- `hash B -> d0..d7`, standing at line `label`, with the STATUS variable x (R66). -/
def pseudoHash (label : Nat) (b : List Byte) (x d0 : Nat) : List HostLine :=
  pseudoLoadmsg b ++ pseudoStart
    ++ pseudoWait (label + (pseudoLoadmsg b ++ pseudoStart).length) x ++ pseudoRddigest d0

/-- The access a line issues, its host variables taken from `h` (R55, R65). -/
def HostAgent.accessOf (h : HostAgent) : HostLine → Option Access
  | .rd off _          => some (.read off)
  | .wr off data       => some (.write off (h.value data))
  | .gotoIfSet _ _ _   => none
  | .gotoIfClear _ _ _ => none

/-- The turns that the accesses of `loadmsg B` are, with no core step between them (R66); a byte string
too long for the operands is taken as in `pseudoLoadmsg` (DESIGN CHOICE, log 19). -/
def loadmsgTurns (b : List Byte) : List Turn :=
  (List.range (wordCount b.length)).map (fun i => .access (.write (msgwordOff i) (paddedWord b i)))
    ++ [.access (.write lenOff (BitVec.ofNat 32 b.length))]

/-- The turn that `start` is (R66). -/
def startTurn : Turn := .access (.write ctrlOff 0x00000001#32)

end Sys2Proof.Machine
end

