-- ==== Sys2Proof/Machine/Platform.lean ====
section
/-! DEFINITION. Several instances on one platform (`60_exceptions.md` R138): each has its own complete
state, nothing is shared, and a transition is one instance's own. The list of states and this transition are
the model's form (log 15, DESIGN CHOICE). -/

namespace Sys2Proof.Machine

/-- The instances of a platform, each with its own state (R138). -/
abbrev Platform := List State

/-- One transition of instance n; a platform without that instance stays as it is (R138). -/
def Platform.step (p : Platform) (n : Nat) : Host.Outcome Platform Fault Refusal :=
  match p[n]? with
  | none => .next p
  | some s =>
    match Sys2Proof.Machine.step s with
    | .next s'   => .next (p.set n s')
    | .fault f   => .fault f
    | .refused r => .refused r

end Sys2Proof.Machine
end

