-- ==== Sys2Proof/Safety.lean ====
section
/-! DEFINITION. What the claims are stated in: the invariants of the block, executions and the fairness
of the core, and when two states cannot be told apart by a host. -/

namespace Sys2Proof.Machine

/-! ### Invariants -/

/-- The message buffer is in canonical form and lists only bytes that exist, MSG[0..MSG_CAP-1]
(R35). -/
def State.MsgCanonical (s : State) : Prop :=
  s.msg.wf ∧ ∀ c ∈ s.msg, c.1 < s.msgCap.bytes

/-- The shape of the sequencing state: during a run the length fits (R110), j < N(LEN) (R22, R101)
and DONE is 0 (R112); EXPAND has 16 <= t (R99); outside EXPAND and ROUND t is 0 (R99, R100). -/
structure State.RunShape (s : State) : Prop where
  lenFits    : s.phase ≠ .idle → s.len.toNat ≤ s.msgCap.bytes
  blockInRun : s.phase ≠ .idle → s.j < blockCount s.len.toNat
  notDone    : s.phase ≠ .idle → s.done = false
  expandFrom : s.phase = .expand → 16 ≤ s.t.val
  indexZero  : s.phase ≠ .expand → s.phase ≠ .round → s.t = 0

/-- The HashState before block n of the run over the state's LEN and MSG (R93). -/
def State.hashBefore (s : State) (n : Nat) : Words8 := hashBlocks s.msgByte s.len.toNat n

/-- w[i] of the block the state is at (R80, R81). -/
def State.scheduleAt (s : State) (i : Nat) : Word :=
  scheduleWord (blockWord s.msgByte s.len.toNat s.j) i

/-- How far the run over the state's own LEN and MSG has come: HS holds the HashState of the blocks
before j, W the schedule words computed so far, V the rounds done so far (R98 to R101, R105). -/
def State.RunProgress (s : State) : Prop :=
  match s.phase with
  | .idle   => True
  | .load   => s.hs = s.hashBefore s.j
  | .expand => s.hs = s.hashBefore s.j ∧ s.v = s.hs ∧
      ∀ i : Fin 64, i.val < s.t.val → s.w.get i = s.scheduleAt i.val
  | .round  => s.hs = s.hashBefore s.j ∧ s.v = roundsUpTo s.hs s.scheduleAt s.t.val ∧
      ∀ i : Fin 64, s.w.get i = s.scheduleAt i.val
  | .accum  => s.hs = s.hashBefore s.j ∧ s.v = roundsUpTo s.hs s.scheduleAt 64
  | .final  => s.hs = digestWords s.msgByte s.len.toNat

/-! ### Executions -/

/-- An infinite execution: the states, and the turn taken from each to the next (R15). -/
def IsExecution (σ : Nat → State) (u : Nat → Turn) : Prop :=
  ∀ n, takeTurn (u n) (σ n) = .next (σ (n + 1))

/-- Weak fairness of the core: if its step stays enabled it is taken again and again (R106). -/
def WeaklyFair (σ : Nat → State) (u : Nat → Turn) : Prop :=
  ∀ n, (∀ m, n ≤ m → (σ m).phase ≠ .idle) → ∃ m, n ≤ m ∧ u m = .core

/-- The turns `us` of a run that is still in progress after each of them: from the accepted START at
`s` the phase has not come back to IDLE (R107). -/
def RunGoesOn (s : State) (us : List Turn) : Prop :=
  ∀ n s', n ≤ us.length → takeTurns (startTurn :: us.take n) s = .next s' → s'.phase ≠ .idle

/-! ### Indistinguishability -/

/-- Two states that differ at most in the hidden datapath HS, V, W (R36). -/
def SameButDatapath (s s' : State) : Prop :=
  { s with hs := s'.hs, v := s'.v, w := s'.w } = s'

/-- The part of the datapath that the rest of the run reads, phase by phase (R17 to R19). -/
def LiveDatapathAgrees (s s' : State) : Prop :=
  match s.phase with
  | .idle   => True
  | .load   => s.hs = s'.hs
  | .expand => s.hs = s'.hs ∧ s.v = s'.v ∧ 16 ≤ s.t.val ∧
      ∀ i : Fin 64, i.val < s.t.val → s.w.get i = s'.w.get i
  | .round  => s.hs = s'.hs ∧ s.v = s'.v ∧ s.w = s'.w
  | .accum  => s.hs = s'.hs ∧ s.v = s'.v
  | .final  => s.hs = s'.hs

/-- Two states no host can tell apart, whatever the datapath held before the run. -/
def Indistinguishable (s s' : State) : Prop :=
  SameButDatapath s s' ∧ LiveDatapathAgrees s s'

/-- Two states that differ at most in the buffer, and agree on MSG[0..LEN-1] (R54, R148). -/
def SameBelowLen (s s' : State) : Prop :=
  { s with msg := s'.msg, draw := s'.draw } = s' ∧
    ∀ a, a < s.len.toNat → s.msgByte a = s'.msgByte a

/-! ### Which instructions a rule speaks of -/

/-- The phase that selects a sequencer step, none for a host operation (R63). -/
def selectingPhase : Instr → Option Phase
  | .stepLoad   => some .load
  | .stepExpand => some .expand
  | .stepRound  => some .round
  | .stepAccum  => some .accum
  | .stepFinal  => some .final
  | .rdCtrl | .wrCtrlClear _ | .wrCtrlStart _ | .wrCtrlNop _ => none
  | .rdStatus | .wrStatus _ | .rdLen | .wrLen _ | .rdMsgcap | .wrMsgcap _ => none
  | .rdDigest _ | .wrDigest _ _ | .rdMsg _ | .wrMsg _ _ | .rdRsvd _ | .wrRsvd _ _ => none

end Sys2Proof.Machine
end

