-- ==== Sys2Proof/Certificates/Slice0/Obligations.lean ====
section
/-! DEFINITION. The statements about the model, one definition each, for the provers. `OBLIGATIONS.json`
lists them; each docstring names the rules of spec/ it formalises. A record update on the right of an
equation is also the frame: every field it does not name is unchanged. -/

open Sys2Proof Sys2Proof.Machine

/-! ### Encoding -/

/-- R55 to R63: decoding the code of a well-formed instruction gives it back, with every operand, and
so does decoding its bytes (the byte form is the model's, log 7). -/
def Obligations.DecodingAnEncodedInstructionGivesItBack : Prop :=
  ∀ i : Instr, i.wellFormed = true →
    decode (encode i) = .ok i ∧ decodeBytes (encodeBytes i) = .ok i

/-- R39, R56, R63: encoding what a record decodes to gives the record with its ignored bits cleared,
and everything the decoder answers is well formed. -/
def Obligations.EncodingADecodedCodeClearsOnlyIgnoredBits : Prop :=
  (∀ a : Access, encode (decodeAccess a) = .access a.aligned) ∧
  (∀ c i, decode (.phase c) = .ok i → encode i = .phase c) ∧
  (∀ c i, decode c = .ok i → i.wellFormed = true)

/-- R57, R58 (and the cases of R56): which operation each word of the offset space selects, by its
number off / 4. -/
def Obligations.OffsetsDecodeByTheAddressMap : Prop :=
  ∀ off wdata : Word,
    let o := off.toNat / 4
    let rd := decodeAccess (.read off)
    let wr := decodeAccess (.write off wdata)
    (o = 0 → rd = .rdCtrl ∧
      (wdata.toNat / 2 % 2 = 1 → wr = .wrCtrlClear wdata) ∧
      (wdata.toNat % 4 = 1 → wr = .wrCtrlStart wdata) ∧
      (wdata.toNat % 4 = 0 → wr = .wrCtrlNop wdata)) ∧
    (o = 1 → rd = .rdStatus ∧ wr = .wrStatus wdata) ∧
    (o = 2 → rd = .rdLen ∧ wr = .wrLen wdata) ∧
    (o = 3 → rd = .rdMsgcap ∧ wr = .wrMsgcap wdata) ∧
    (4 ≤ o → o ≤ 7 → rd = .rdRsvd (BitVec.ofNat 29 o) ∧ wr = .wrRsvd (BitVec.ofNat 29 o) wdata) ∧
    (∀ k : Fin 8, o = 8 + k.val → rd = .rdDigest k ∧ wr = .wrDigest k wdata) ∧
    (16 ≤ o → o < 2 ^ 29 →
      rd = .rdRsvd (BitVec.ofNat 29 o) ∧ wr = .wrRsvd (BitVec.ofNat 29 o) wdata) ∧
    (2 ^ 29 ≤ o →
      rd = .rdMsg (BitVec.ofNat 29 (o - 2 ^ 29)) ∧
      wr = .wrMsg (BitVec.ofNat 29 (o - 2 ^ 29)) wdata)

/-- R39: an access at off acts exactly as the access at off & 0xFFFFFFFC, and every other offset bit
is decoded. -/
def Obligations.OffsetBitsOneAndZeroAreIgnored : Prop :=
  (∀ (off : Word) (s : State),
    takeTurn (.access (.read off)) s = takeTurn (.access (.read (off &&& 0xFFFFFFFC#32))) s) ∧
  (∀ (off wdata : Word) (s : State),
    takeTurn (.access (.write off wdata)) s =
      takeTurn (.access (.write (off &&& 0xFFFFFFFC#32) wdata)) s) ∧
  (∀ off off' : Word, decodeAccess (.read off) = decodeAccess (.read off') →
    off &&& 0xFFFFFFFC#32 = off' &&& 0xFFFFFFFC#32)

/-- Written-out codes of each family (R57, R58, R60, R63 and the decode table V-HOST-1) decode to the
instructions they stand for. -/
def Obligations.WrittenOutCodesDecode : Prop :=
  decode (.access (.read 0x00000000#32)) = .ok .rdCtrl ∧
  decode (.access (.write 0x00000000#32 0x00000003#32)) = .ok (.wrCtrlClear 0x00000003#32) ∧
  decode (.access (.write 0x00000000#32 0x00000001#32)) = .ok (.wrCtrlStart 0x00000001#32) ∧
  decode (.access (.write 0x00000000#32 0xFFFFFFFC#32)) = .ok (.wrCtrlNop 0xFFFFFFFC#32) ∧
  decode (.access (.write 0x0000000B#32 0x00000040#32)) = .ok (.wrLen 0x00000040#32) ∧
  decode (.access (.read 0x00000023#32)) = .ok (.rdDigest 0) ∧
  decode (.access (.read 0x0000003F#32)) = .ok (.rdDigest 7) ∧
  decode (.access (.write 0x80000004#32 0x62636465#32)) = .ok (.wrMsg 1#29 0x62636465#32) ∧
  decode (.access (.read 0x7FFFFFFC#32)) = .ok (.rdRsvd 0x1FFFFFFF#29) ∧
  decode (.phase 0b001#3) = .ok .stepLoad ∧
  decode (.phase 0b101#3) = .ok .stepFinal ∧
  decode (.phase 0b000#3) = .error .idlePhase ∧
  decode (.phase 0b111#3) = .error .unusedPhase

/-! ### The step -/

/-- R15, R63, R96, R103: what one step is. The first turn to come is taken: an access runs the
instruction it decodes to, a turn of the core the instruction its phase code decodes to, in IDLE
nothing; without a turn to come the core moves (the order of turns is log 4, the empty list log 5). -/
def Obligations.StepRunsTheSelectedInstruction : Prop :=
  (∀ (s : State) (a : Access) (us : List Turn), s.turns = .access a :: us →
    step s = exec (decodeAccess a) { s with turns := us }) ∧
  (∀ (s : State) (us : List Turn) (i : Instr), s.turns = .core :: us →
    decode (.phase (codeOfPhase s.phase)) = .ok i → step s = exec i { s with turns := us }) ∧
  (∀ (s : State) (i : Instr), s.turns = [] →
    decode (.phase (codeOfPhase s.phase)) = .ok i → step s = exec i s) ∧
  (∀ (s : State) (us : List Turn), s.turns = .core :: us → s.phase = .idle →
    step s = .next { s with turns := us }) ∧
  (∀ s : State, s.turns = [] → s.phase = .idle → step s = .next s) ∧
  (∀ (s : State) (us : List Turn), s.turns = .reset :: us →
    step s = .next { s with turns := us }.resetInput)

/-- The instruction of a table word, placed by `withFetchWord`, is the very next step (log 7, log 9):
nothing but the phase that a sequencer step needs is changed. -/
def Obligations.PlacedTableWordIsTheNextStep : Prop :=
  ∀ (s : State) (nbits w : Nat) (i : Instr), decodeTableWord nbits w = some i →
    step (s.withFetchWord nbits w) = exec i { s with phase := (selectingPhase i).getD s.phase }

/-- R126, R127, R130: no transition of the block faults or is refused, in any state whatever. -/
def Obligations.EveryStepAnswersANextState : Prop :=
  ∀ s : State, ∃ s', step s = .next s'

/-- R63, R96: a sequencer step is enabled in the one phase that selects it; elsewhere its meaning is
stuck (the name of the stop is the model's, log 8). -/
def Obligations.SequencerStepIsEnabledInItsPhaseOnly : Prop :=
  ∀ (s : State) (i : Instr) (p : Phase), selectingPhase i = some p →
    (s.phase = p → ∃ s', exec i s = .next s') ∧
    (s.phase ≠ p → exec i s = .fault .stepNotEnabled)

/-- R15, R49, R152: every finite interleaving of accesses, core steps and resets is a run of `step`
from the state whose turns to come are that interleaving (log 4). -/
def Obligations.EveryInterleavingIsARunOfStep : Prop :=
  ∀ (us : List Turn) (s : State), s.turns = [] →
    Host.Core.run Sys2Proof.core us.length (s.withTurns us) = takeTurns us s

/-! ### Reset and CLEAR -/

/-- R141: the reset input in any state. Every byte of MSG is the next draw (the draw is the
model's form, log 2); HS, V and W are not spoken of (log 3). -/
def Obligations.ResetInputGivesTheResetValues : Prop :=
  ∀ s : State, ∃ t, takeTurn .reset s = .next t ∧
    t.phase = .idle ∧ t.t = 0 ∧ t.j = 0 ∧
    t.done = false ∧ t.errBusy = false ∧ t.errLen = false ∧ t.len = 0x00000000#32 ∧
    (∀ k : Fin 8, t.digest.get k = 0x00000000#32) ∧
    (∀ a, t.msgByte a = Config.unwrittenByte (s.draw + 1) a) ∧
    t.msgCap = s.msgCap

/-- R142: after reset STATUS reads 0, MSGCAP reads MSG_CAP, and the phase is IDLE. -/
def Obligations.AfterResetStatusReadsZero : Prop :=
  ∀ s t : State, (t = State.reset ∨ takeTurn .reset s = .next t) →
    t.phase = .idle ∧
    (∃ u, exec .rdStatus t = .next u ∧ u.rdata = some 0x00000000#32) ∧
    (∃ u, exec .rdMsgcap t = .next u ∧ u.rdata = some (BitVec.ofNat 32 t.msgCap.bytes)) ∧
    (BitVec.ofNat 32 t.msgCap.bytes).toNat = t.msgCap.bytes

/-- R144: what CLEAR leaves and what reset leaves, side by side (the draw of MSG is the model's form,
log 2). -/
def Obligations.ClearKeepsWhatResetDoesNot : Prop :=
  ∀ (s : State) (d : Word), ∃ c r,
    exec (.wrCtrlClear d) s = .next c ∧ takeTurn .reset s = .next r ∧
    c.phase = .idle ∧ r.phase = .idle ∧ c.t = 0 ∧ r.t = 0 ∧ c.j = 0 ∧ r.j = 0 ∧
    c.done = false ∧ r.done = false ∧ c.errBusy = false ∧ r.errBusy = false ∧
    c.errLen = false ∧ r.errLen = false ∧
    c.len = s.len ∧ r.len = 0#32 ∧
    c.digest = s.digest ∧ (∀ k : Fin 8, r.digest.get k = 0#32) ∧
    (∀ a, c.msgByte a = s.msgByte a) ∧
    (∀ a, r.msgByte a = Config.unwrittenByte (s.draw + 1) a) ∧
    c.hs = s.hs ∧ c.v = s.v ∧ c.w = s.w

/-! ### Host operations: each with the offsets that select it, its result and its frame -/

/-- R108, R114, R116, R122: CTRL and the reserved offsets read as 0, LEN and MSGCAP as their value. -/
def Obligations.RegisterReadsReturnTheirValue : Prop :=
  ∀ (s : State) (off : Word),
    (alignOff off = 0x00000000#32 →
      decodeAccess (.read off) = .rdCtrl ∧ exec .rdCtrl s = .next { s with rdata := some 0#32 }) ∧
    (alignOff off = 0x00000008#32 →
      decodeAccess (.read off) = .rdLen ∧ exec .rdLen s = .next { s with rdata := some s.len }) ∧
    (alignOff off = 0x0000000C#32 →
      decodeAccess (.read off) = .rdMsgcap ∧ ∃ w : Word,
        exec .rdMsgcap s = .next { s with rdata := some w } ∧ w.toNat = s.msgCap.bytes) ∧
    ((0x10 ≤ (alignOff off).toNat ∧ (alignOff off).toNat ≤ 0x1C) ∨
      (0x40 ≤ (alignOff off).toNat ∧ (alignOff off).toNat ≤ 0x7FFFFFFC) →
      ∃ x, decodeAccess (.read off) = .rdRsvd x ∧
        exec (.rdRsvd x) s = .next { s with rdata := some 0#32 })

/-- R118, R44: DIGEST k is read at 0x20 + 4k and returns word k, whose lane m is byte 4k + m of the
digest. -/
def Obligations.DigestReadReturnsItsWord : Prop :=
  ∀ (s : State) (off : Word) (k : Fin 8), (alignOff off).toNat = 0x20 + 4 * k.val →
    decodeAccess (.read off) = .rdDigest k ∧
    exec (.rdDigest k) s = .next { s with rdata := some (s.digest.get k) } ∧
    ∀ m, m < 4 → (assemble s.digest)[4 * k.val + m]? = some (lane (s.digest.get k) m)

/-- R27: the STATUS word bit by bit, its writes ignored, its value after reset. -/
def Obligations.StatusReadShowsItsFields : Prop :=
  (∀ (s : State) (off wdata : Word), alignOff off = 0x00000004#32 →
    decodeAccess (.read off) = .rdStatus ∧
    (∃ w : Word, exec .rdStatus s = .next { s with rdata := some w } ∧
      w.getLsbD 0 = decide (s.phase ≠ .idle) ∧ w.getLsbD 1 = s.done ∧
      w.getLsbD 2 = s.errBusy ∧ w.getLsbD 3 = s.errLen ∧ ∀ n, 4 ≤ n → w.getLsbD n = false) ∧
    decodeAccess (.write off wdata) = .wrStatus wdata ∧
    exec (.wrStatus wdata) s = .next { s with rdata := none }) ∧
  State.reset.statusWord = 0x00000000#32

/-- R111, R113, R117, R119, R123: the writes that change nothing and set no error bit. -/
def Obligations.IgnoredWritesChangeNothing : Prop :=
  ∀ (s : State) (off d : Word),
    (alignOff off = 0x00000000#32 → d.getLsbD 1 = false → d.getLsbD 0 = false →
      decodeAccess (.write off d) = .wrCtrlNop d ∧
      exec (.wrCtrlNop d) s = .next { s with rdata := none }) ∧
    (alignOff off = 0x00000004#32 →
      decodeAccess (.write off d) = .wrStatus d ∧
      exec (.wrStatus d) s = .next { s with rdata := none }) ∧
    (alignOff off = 0x0000000C#32 →
      decodeAccess (.write off d) = .wrMsgcap d ∧
      exec (.wrMsgcap d) s = .next { s with rdata := none }) ∧
    (∀ k : Fin 8, (alignOff off).toNat = 0x20 + 4 * k.val →
      decodeAccess (.write off d) = .wrDigest k d ∧
      exec (.wrDigest k d) s = .next { s with rdata := none }) ∧
    ((0x10 ≤ (alignOff off).toNat ∧ (alignOff off).toNat ≤ 0x1C) ∨
      (0x40 ≤ (alignOff off).toNat ∧ (alignOff off).toNat ≤ 0x7FFFFFFC) →
      ∃ x, decodeAccess (.write off d) = .wrRsvd x d ∧
        exec (.wrRsvd x d) s = .next { s with rdata := none })

/-- R109: CLEAR, in every phase and whatever START says. -/
def Obligations.ClearAbortsAndClearsStatus : Prop :=
  ∀ (s : State) (off d : Word), alignOff off = 0x00000000#32 → d.getLsbD 1 = true →
    decodeAccess (.write off d) = .wrCtrlClear d ∧
    exec (.wrCtrlClear d) s = .next
      { s with phase := .idle, t := 0, j := 0, done := false, errBusy := false,
               errLen := false, rdata := none }

/-- R110, R97: START while busy, START with LEN above MSG_CAP, and the accepted START with its
begin-run. -/
def Obligations.StartBeginsARunOrSetsItsErrorBit : Prop :=
  ∀ (s : State) (off d : Word), alignOff off = 0x00000000#32 → d.getLsbD 1 = false →
    d.getLsbD 0 = true →
    decodeAccess (.write off d) = .wrCtrlStart d ∧
    (s.phase ≠ .idle →
      exec (.wrCtrlStart d) s = .next { s with errBusy := true, rdata := none }) ∧
    (s.phase = .idle → s.msgCap.bytes < s.len.toNat →
      exec (.wrCtrlStart d) s = .next { s with done := false, errLen := true, rdata := none }) ∧
    (s.phase = .idle → s.len.toNat ≤ s.msgCap.bytes →
      exec (.wrCtrlStart d) s = .next
        { s with done := false, hs := iv, j := 0, t := 0, phase := .load, rdata := none })

/-- R115: a LEN write is stored while idle, any value, and rejected during a run. -/
def Obligations.LenWriteIsStoredOnlyWhileIdle : Prop :=
  ∀ (s : State) (off d : Word), alignOff off = 0x00000008#32 →
    decodeAccess (.write off d) = .wrLen d ∧
    (s.phase = .idle → exec (.wrLen d) s = .next { s with len := d, rdata := none }) ∧
    (s.phase ≠ .idle → exec (.wrLen d) s = .next { s with errBusy := true, rdata := none })

/-- R120: a read of window word i returns the four buffer bytes big-endian, or 0 beyond capacity. -/
def Obligations.MsgReadReturnsTheWindowWord : Prop :=
  ∀ (s : State) (off : Word), off.getLsbD 31 = true → ∃ (i : BitVec 29) (w : Word),
    i.toNat = (off.toNat - 2 ^ 31) / 4 ∧ decodeAccess (.read off) = .rdMsg i ∧
    exec (.rdMsg i) s = .next { s with rdata := some w } ∧
    (4 * i.toNat + 4 ≤ s.msgCap.bytes →
      w.toNat = (s.msgByte (4 * i.toNat)).toNat * 2 ^ 24 +
        (s.msgByte (4 * i.toNat + 1)).toNat * 2 ^ 16 +
        (s.msgByte (4 * i.toNat + 2)).toNat * 2 ^ 8 + (s.msgByte (4 * i.toNat + 3)).toNat) ∧
    (s.msgCap.bytes < 4 * i.toNat + 4 → w = 0x00000000#32)

/-- R121: a write of window word i: capacity before busy; the four bytes it stores at 4i .. 4i+3,
every other byte as before, and nothing else changed; no digest of a LEN at or below 4i changes. -/
def Obligations.MsgWriteIsStoredWhileIdleWithinCapacity : Prop :=
  ∀ (s : State) (off d : Word), off.getLsbD 31 = true → ∃ i : BitVec 29,
    i.toNat = (off.toNat - 2 ^ 31) / 4 ∧ decodeAccess (.write off d) = .wrMsg i d ∧
    (s.msgCap.bytes < 4 * i.toNat + 4 → exec (.wrMsg i d) s = .next { s with rdata := none }) ∧
    (4 * i.toNat + 4 ≤ s.msgCap.bytes → s.phase ≠ .idle →
      exec (.wrMsg i d) s = .next { s with errBusy := true, rdata := none }) ∧
    (4 * i.toNat + 4 ≤ s.msgCap.bytes → s.phase = .idle → ∃ t,
      exec (.wrMsg i d) s = .next t ∧ { t with msg := s.msg } = { s with rdata := none } ∧
      (∀ m, m < 4 → (t.msgByte (4 * i.toNat + m)).toNat = d.toNat / 2 ^ (24 - 8 * m) % 2 ^ 8) ∧
      (∀ a, a < 4 * i.toNat ∨ 4 * i.toNat + 4 ≤ a → t.msgByte a = s.msgByte a) ∧
      ∀ L, L ≤ 4 * i.toNat → digestWords t.msgByte L = digestWords s.msgByte L)

/-- R41, R124: a window word written while idle reads back, and no other window word changes. -/
def Obligations.WrittenWindowWordReadsBack : Prop :=
  ∀ (s t : State) (i n : BitVec 29) (d : Word), s.phase = .idle →
    4 * i.toNat + 4 ≤ s.msgCap.bytes → exec (.wrMsg i d) s = .next t →
    exec (.rdMsg i) t = .next { t with rdata := some d } ∧
    (n ≠ i → ∃ w, exec (.rdMsg n) t = .next { t with rdata := some w } ∧
      exec (.rdMsg n) s = .next { s with rdata := some w })

/-- R47: a read of any offset changes no state (but the word it returns, log 6), and reading again
returns the same word. -/
def Obligations.ReadsChangeNoState : Prop :=
  ∀ (s : State) (off : Word), ∃ w : Word,
    takeTurn (.access (.read off)) s = .next { s with rdata := some w } ∧
    takeTurn (.access (.read off)) { s with rdata := some w } = .next { s with rdata := some w }

/-! ### Whole-machine rules about host accesses -/

/-- R145, R54: during a run no access but CLEAR changes anything of the run, its LEN or its MSG, and
a START, a LEN write and a write within capacity set ERR_BUSY. -/
def Obligations.RunIsUndisturbedByHostAccesses : Prop :=
  ∀ (s t : State) (a : Access), s.phase ≠ .idle →
    (∀ d, decodeAccess a ≠ .wrCtrlClear d) → takeTurn (.access a) s = .next t →
    { t with errBusy := s.errBusy, rdata := s.rdata } = s ∧
    (t.errBusy = true ↔ s.errBusy = true ∨ (∃ d, decodeAccess a = .wrCtrlStart d) ∨
      (∃ d, decodeAccess a = .wrLen d) ∨
      ∃ i d, decodeAccess a = .wrMsg i d ∧ 4 * i.toNat + 4 ≤ s.msgCap.bytes)

/-- R131, R127: one access sets at most one error bit, and ERR_LEN only by a START while idle with
LEN > MSG_CAP. -/
def Obligations.OneAccessSetsAtMostOneErrorBit : Prop :=
  ∀ (s t : State) (a : Access), takeTurn (.access a) s = .next t →
    ¬ (s.errBusy = false ∧ t.errBusy = true ∧ s.errLen = false ∧ t.errLen = true) ∧
    (s.errLen = false → t.errLen = true →
      (∃ d, decodeAccess a = .wrCtrlStart d) ∧ s.phase = .idle ∧
        s.msgCap.bytes < s.len.toNat) ∧
    (s.errBusy = false → t.errBusy = true → s.phase ≠ .idle)

/-- R132: an error bit stays 1 until a CLEAR write or reset. -/
def Obligations.ErrorBitsStayUntilClearOrReset : Prop :=
  ∀ (s t : State) (u : Turn), takeTurn u s = .next t → u ≠ .reset →
    (∀ a d, u = .access a → decodeAccess a ≠ .wrCtrlClear d) →
    (s.errBusy = true → t.errBusy = true) ∧ (s.errLen = true → t.errLen = true)

/-- R34, R29: no instruction but STEP_FINAL writes DIGEST or sets DONE, and DONE is cleared by a START
while idle or a CLEAR alone. -/
def Obligations.OnlyTheFinalStepWritesDigestAndSetsDone : Prop :=
  ∀ (i : Instr) (s t : State), exec i s = .next t →
    (t.digest ≠ s.digest → i = .stepFinal) ∧
    (s.done = false → t.done = true → i = .stepFinal) ∧
    (s.done = true → t.done = false →
      (∃ d, i = .wrCtrlClear d) ∨ ((∃ d, i = .wrCtrlStart d) ∧ s.phase = .idle))

/-- R17 to R22, R36: which instructions write the hidden state. A host operation never writes V or W,
and writes HS only by the begin-run of an accepted START. -/
def Obligations.HostOperationsLeaveTheDatapath : Prop :=
  ∀ (i : Instr) (s t : State), selectingPhase i = none → exec i s = .next t →
    t.v = s.v ∧ t.w = s.w ∧
    (t.hs ≠ s.hs → t.hs = iv ∧ (∃ d, i = .wrCtrlStart d) ∧ s.phase = .idle ∧ t.phase = .load)

/-- R54, R121 (frame of MSG): a write of the MSG window changes at most its own four bytes, and no
other instruction changes any byte: the core never writes MSG. -/
def Obligations.OnlyWindowWritesChangeTheBuffer : Prop :=
  (∀ (i : Instr) (s t : State), (∀ n d, i ≠ .wrMsg n d) → exec i s = .next t →
    ∀ a, t.msgByte a = s.msgByte a) ∧
  (∀ (n : BitVec 29) (d : Word) (s t : State), exec (.wrMsg n d) s = .next t →
    ∀ a, a < 4 * n.toNat ∨ 4 * n.toNat + 4 ≤ a → t.msgByte a = s.msgByte a)

/-- R33, R8: MSG_CAP is the same at every time, including after reset, and legal (the opaque parameter
is log 1). -/
def Obligations.CapacityIsTheSameAtEveryTime : Prop :=
  ∀ s t : State, step s = .next t →
    t.msgCap = s.msgCap ∧ t.msgCap.bytes % 4 = 0 ∧ 4 ≤ t.msgCap.bytes ∧ t.msgCap.bytes ≤ 2 ^ 31

/-! ### Sequencer steps: result and frame -/

/-- R98: W[0..15] are the words of block j of the padded message, V is HS, t is 16, the phase EXPAND;
W[16..63] and everything else is unchanged. -/
def Obligations.LoadStepLoadsTheBlock : Prop :=
  ∀ s : State, s.phase = .load → ∃ t, exec .stepLoad s = .next t ∧
    (∀ i : Fin 64, i.val < 16 → t.w.get i =
      be32 (padByte s.msgByte s.len.toNat (64 * s.j + 4 * i.val))
        (padByte s.msgByte s.len.toNat (64 * s.j + 4 * i.val + 1))
        (padByte s.msgByte s.len.toNat (64 * s.j + 4 * i.val + 2))
        (padByte s.msgByte s.len.toNat (64 * s.j + 4 * i.val + 3))) ∧
    (∀ i : Fin 64, 16 ≤ i.val → t.w.get i = s.w.get i) ∧
    t.v = s.hs ∧ t.t.val = 16 ∧ t.phase = .expand ∧
    { t with w := s.w, v := s.v, t := s.t, phase := s.phase } = s

/-- R99: one schedule word from the four words before it, for 16 <= t (which every run has). -/
def Obligations.ExpandStepComputesOneScheduleWord : Prop :=
  ∀ s : State, s.phase = .expand → 16 ≤ s.t.val → ∃ t, exec .stepExpand s = .next t ∧
    (∀ a b c d : Fin 64, a.val + 2 = s.t.val → b.val + 7 = s.t.val → c.val + 15 = s.t.val →
      d.val + 16 = s.t.val →
      t.w.get s.t = smallSigma1 (s.w.get a) + s.w.get b + smallSigma0 (s.w.get c) + s.w.get d) ∧
    (∀ i : Fin 64, i ≠ s.t → t.w.get i = s.w.get i) ∧
    (s.t.val = 63 → t.t = 0 ∧ t.phase = .round) ∧
    (s.t.val < 63 → t.t.val = s.t.val + 1 ∧ t.phase = .expand) ∧
    { t with w := s.w, t := s.t, phase := s.phase } = s

/-- R100 with R87, R88, R89: one compression round. -/
def Obligations.RoundStepRunsOneRound : Prop :=
  ∀ s : State, s.phase = .round → ∃ (t : State) (t1 t2 : Word), exec .stepRound s = .next t ∧
    t1 = s.v.get 7 + bigSigma1 (s.v.get 4) + ch (s.v.get 4) (s.v.get 5) (s.v.get 6)
      + kConst s.t.val + s.w.get s.t ∧
    t2 = bigSigma0 (s.v.get 0) + maj (s.v.get 0) (s.v.get 1) (s.v.get 2) ∧
    t.v.get 0 = t1 + t2 ∧ t.v.get 1 = s.v.get 0 ∧ t.v.get 2 = s.v.get 1 ∧
    t.v.get 3 = s.v.get 2 ∧ t.v.get 4 = s.v.get 3 + t1 ∧ t.v.get 5 = s.v.get 4 ∧
    t.v.get 6 = s.v.get 5 ∧ t.v.get 7 = s.v.get 6 ∧
    (s.t.val = 63 → t.t = 0 ∧ t.phase = .accum) ∧
    (s.t.val < 63 → t.t.val = s.t.val + 1 ∧ t.phase = .round) ∧
    { t with v := s.v, t := s.t, phase := s.phase } = s

/-- R101: the accumulation, word by word modulo 2^32, and the block loop. -/
def Obligations.AccumStepAddsAndLoops : Prop :=
  ∀ s : State, s.phase = .accum → ∃ t, exec .stepAccum s = .next t ∧
    (∀ i : Fin 8, (t.hs.get i).toNat = ((s.hs.get i).toNat + (s.v.get i).toNat) % 2 ^ 32) ∧
    (s.j + 1 < blockCount s.len.toNat → t.j = s.j + 1 ∧ t.phase = .load) ∧
    (blockCount s.len.toNat ≤ s.j + 1 → t.j = s.j ∧ t.phase = .final) ∧
    { t with hs := s.hs, j := s.j, phase := s.phase } = s

/-- R102: DIGEST takes HS, DONE is set, BUSY becomes 0, and nothing else changes. -/
def Obligations.FinalStepWritesTheDigest : Prop :=
  ∀ s : State, s.phase = .final → ∃ t, exec .stepFinal s = .next t ∧
    (∀ k : Fin 8, t.digest.get k = s.hs.get k) ∧ t.done = true ∧ t.phase = .idle ∧
    t.busy = false ∧ { t with digest := s.digest, done := s.done, phase := s.phase } = s

/-! ### The pure functions -/

/-- R11, R12, and through them R78, R79, R83, R84: bit i of a rotation, the shift as a division, and
bit i of each mixing function of the schedule and the round. -/
def Obligations.RotationsShiftsAndSigmasBitByBit : Prop :=
  ∀ (x : Word) (n : Nat),
    (1 ≤ n → n ≤ 31 → ∀ i, i < 32 → (rotr x n).getLsbD i = x.getLsbD ((i + n) % 32)) ∧
    (n ≤ 31 → (shr x n).toNat = x.toNat / 2 ^ n) ∧
    ∀ i, i < 32 →
      let r := fun n => x.getLsbD ((i + n) % 32)
      (smallSigma0 x).getLsbD i = (r 7 ^^ r 18 ^^ x.getLsbD (i + 3)) ∧
      (smallSigma1 x).getLsbD i = (r 17 ^^ r 19 ^^ x.getLsbD (i + 10)) ∧
      (bigSigma1 x).getLsbD i = (r 6 ^^ r 11 ^^ r 25) ∧
      (bigSigma0 x).getLsbD i = (r 2 ^^ r 13 ^^ r 22)

/-- R85, R86: Ch takes each bit from f or from g, Maj takes the majority of the three bits. -/
def Obligations.ChooseAndMajorityBitByBit : Prop :=
  ∀ (a b c : Word) (i : Nat), i < 32 →
    (ch a b c).getLsbD i = (if a.getLsbD i then b.getLsbD i else c.getLsbD i) ∧
    ((maj a b c).getLsbD i = true ↔
      2 ≤ (a.getLsbD i).toNat + (b.getLsbD i).toNat + (c.getLsbD i).toNat)

/-- R24, R25: K[t] is the first 32 bits of the fractional part of the cube root of the (t+1)-th prime,
IV[i] of the square root of the (i+1)-th. -/
def Obligations.ConstantsAreRootsOfThePrimes : Prop :=
  (∀ t, t < 64 → ∃ a : Nat,
    (a * 2 ^ 32 + (kConst t).toNat) ^ 3 ≤ Nat.nth Nat.Prime t * 2 ^ 96 ∧
    Nat.nth Nat.Prime t * 2 ^ 96 < (a * 2 ^ 32 + (kConst t).toNat + 1) ^ 3) ∧
  (∀ i : Fin 8, ∃ a : Nat,
    (a * 2 ^ 32 + (iv.get i).toNat) ^ 2 ≤ Nat.nth Nat.Prime i.val * 2 ^ 64 ∧
    Nat.nth Nat.Prime i.val * 2 ^ 64 < (a * 2 ^ 32 + (iv.get i).toNat + 1) ^ 2)

/-- R69, R73: the padded length, the block count and their bounds, for every length. -/
def Obligations.PaddedLengthIsWholeBlocks : Prop :=
  (∀ L : Nat, padTotal L = L + padLen L ∧ padTotal L % 64 = 0 ∧ 64 ≤ padTotal L ∧
    9 ≤ padTotal L - L ∧ padTotal L - L ≤ 72 ∧ blockCount L * 64 = padTotal L ∧
    blockCount L = (L + 8) / 64 + 1 ∧ 1 ≤ blockCount L) ∧
  blockCount 55 = 1 ∧ blockCount 56 = 2

/-- R70, R71, R72: the padded message as a list: the message, 0x80, zero bytes, and the bit length
modulo 2^64 as eight big-endian bytes. -/
def Obligations.PaddedMessageLayout : Prop :=
  ∀ m : List Byte, ∃ v : BitVec 64, v.toNat = 8 * m.length % 2 ^ 64 ∧
    padMessage m = m ++ 0x80#8 :: List.replicate (padLen m.length - 9) 0x00#8 ++ bytesBE64 v

/-- R75, R76: the blocks cut the padded message into 64-byte pieces in order, and word i of block j is
the big-endian word of its bytes 4i .. 4i + 3. -/
def Obligations.BlocksAndTheirWords : Prop :=
  ∀ m : List Byte,
    ((List.range (blockCount m.length)).flatMap (blockOf (padMessage m)) = padMessage m) ∧
    ∀ j i, j < blockCount m.length → i < 16 →
      (blockOf (padMessage m) j).length = 64 ∧
      blockWord (fun n => m.getD n 0#8) m.length j i =
        be32 ((blockOf (padMessage m) j).getD (4 * i) 0#8)
          ((blockOf (padMessage m) j).getD (4 * i + 1) 0#8)
          ((blockOf (padMessage m) j).getD (4 * i + 2) 0#8)
          ((blockOf (padMessage m) j).getD (4 * i + 3) 0#8)

/-- R80, R81: the recurrence of the schedule. -/
def Obligations.ScheduleFollowsItsRecurrence : Prop :=
  ∀ b : Nat → Word, (∀ t, t < 16 → scheduleWord b t = b t) ∧
    ∀ t, scheduleWord b (t + 16) =
      smallSigma1 (scheduleWord b (t + 14)) + scheduleWord b (t + 9)
        + smallSigma0 (scheduleWord b (t + 1)) + scheduleWord b t

/-- R92, R94: the digest has 32 bytes, and byte 4k + m is lane m of word k. -/
def Obligations.DigestBytesInStateOrder : Prop :=
  (∀ (hs : Words8), (assemble hs).length = 32 ∧ ∀ (k : Fin 8) (m : Nat), m < 4 →
    ∃ b, (assemble hs)[4 * k.val + m]? = some b ∧
      b.toNat = (hs.get k).toNat / 2 ^ (24 - 8 * m) % 2 ^ 8) ∧
  ∀ m : List Byte, (digestOf m).length = 32

/-- R94, R54: the digest depends on the bytes below L alone. -/
def Obligations.DigestDependsOnTheMessageAlone : Prop :=
  ∀ (m m' : Nat → Byte) (L : Nat), (∀ i, i < L → m i = m' i) →
    digestWords m L = digestWords m' L

/-! ### Invariants -/

/-- The state after reset meets the three invariants (its buffer lists nothing, log 2). -/
def Obligations.ResetMeetsTheInvariants : Prop :=
  State.reset.MsgCanonical ∧ State.reset.RunShape ∧ State.reset.RunProgress

/-- R35: every step keeps the buffer in canonical form and inside MSG[0..MSG_CAP-1] (the list of known
bytes is the model's form of MSG, log 2). -/
def Obligations.StepKeepsTheBufferCanonical : Prop :=
  ∀ s t : State, s.MsgCanonical → step s = .next t → t.MsgCanonical

/-- R21, R22, R99, R110, R112: during a run LEN <= MSG_CAP, j < N(LEN), DONE is 0 and t is in range;
every step keeps it. -/
def Obligations.StepKeepsTheRunShape : Prop :=
  ∀ s t : State, s.RunShape → step s = .next t → t.RunShape

/-- R97 to R101, R105: HS, V and W hold what the message so far gives; every step keeps it, whatever
the host does. -/
def Obligations.StepKeepsTheRunProgress : Prop :=
  ∀ s t : State, s.RunShape → s.RunProgress → step s = .next t → t.RunProgress

/-! ### Runs -/

/-- R105: a run that is not aborted leaves the digest of the LEN and MSG it was started with, for
every interleaving of host accesses. -/
def Obligations.CompletedRunLeavesTheDigest : Prop :=
  ∀ (s s1 s2 : State) (us : List Turn), s.phase = .idle → s.len.toNat ≤ s.msgCap.bytes →
    takeTurns (startTurn :: us) s = .next s1 → RunGoesOn s us →
    takeTurn .core s1 = .next s2 → s2.phase = .idle →
    s2.done = true ∧
    assemble s2.digest = digestOf ((List.range s.len.toNat).map s.msgByte)

/-- R104: a run that is not aborted takes exactly 114 N + 1 core steps after its accepted START, for
every interleaving of host accesses. -/
def Obligations.RunTakesItsStepCount : Prop :=
  ∀ (s s1 s2 : State) (us : List Turn), s.phase = .idle → s.len.toNat ≤ s.msgCap.bytes →
    takeTurns (startTurn :: us) s = .next s1 → RunGoesOn s us →
    takeTurn .core s1 = .next s2 → s2.phase = .idle →
    us.count .core + 1 = 114 * blockCount s.len.toNat + 1

/-- R104: after an accepted START the core, left alone, takes per block one STEP_LOAD, 48 STEP_EXPAND,
64 STEP_ROUND and one STEP_ACCUM, then one STEP_FINAL: where it stands after 114 k + r steps, and how
the run ends. -/
def Obligations.CoreAloneCompletesTheRun : Prop :=
  ∀ s : State, s.phase = .idle → s.len.toNat ≤ s.msgCap.bytes →
    (∀ k r, k < blockCount s.len.toNat → r < 114 → ∃ t,
      takeTurns (startTurn :: List.replicate (114 * k + r) .core) s = .next t ∧ t.j = k ∧
      (r = 0 → t.phase = .load) ∧
      (1 ≤ r → r ≤ 48 → t.phase = .expand ∧ t.t.val = 15 + r) ∧
      (49 ≤ r → r ≤ 112 → t.phase = .round ∧ t.t.val = r - 49) ∧
      (r = 113 → t.phase = .accum)) ∧
    (∃ t, takeTurns (startTurn :: List.replicate (114 * blockCount s.len.toNat) .core) s
        = .next t ∧ t.phase = .final) ∧
    ∃ t, takeTurns (startTurn :: List.replicate (114 * blockCount s.len.toNat + 1) .core) s
        = .next t ∧ t.phase = .idle ∧ t.done = true

/-- R106, R107: under weak fairness of the core every run ends, in one of three ways: by STEP_FINAL,
with DONE set and DIGEST written, by a CLEAR, with DIGEST as it was, or by reset. -/
def Obligations.FairRunsEnd : Prop :=
  ∀ (σ : Nat → State) (u : Nat → Turn), IsExecution σ u → WeaklyFair σ u →
    ∀ n, (σ n).RunShape → (σ n).phase ≠ .idle → ∃ m, n ≤ m ∧
      (∀ k, n ≤ k → k ≤ m → (σ k).phase ≠ .idle) ∧ (σ (m + 1)).phase = .idle ∧
      ((u m = .core ∧ (σ m).phase = .final ∧ (σ (m + 1)).done = true ∧
          (σ (m + 1)).digest = (σ m).hs) ∨
        (∃ a d, u m = .access a ∧ decodeAccess a = .wrCtrlClear d ∧
          (σ (m + 1)).digest = (σ m).digest) ∨
        u m = .reset)

/-- R147: a write in capacity that races with STEP_FINAL has both outcomes: before it the write is
rejected with ERR_BUSY, after it the write is stored; the digest is the same. -/
def Obligations.WriteRacingTheFinalStepHasBothOutcomes : Prop :=
  ∀ (s : State) (i : BitVec 29) (d : Word), s.phase = .final →
    4 * i.toNat + 4 ≤ s.msgCap.bytes →
    ∃ early late,
      takeTurns [.access (.write (windowOff i) d), .core] s = .next early ∧
      takeTurns [.core, .access (.write (windowOff i) d)] s = .next late ∧
      early.errBusy = true ∧ early.msg = s.msg ∧
      late.errBusy = s.errBusy ∧ late.msgWord i = d ∧
      early.digest = s.hs ∧ late.digest = s.hs ∧
      early.phase = .idle ∧ late.phase = .idle

/-! ### What cannot be told apart -/

/-- R36 (and R17 to R19): whatever HS, V and W hold outside their live range, no read of the host
tells: states that agree but there step to states that agree, and return the same word. -/
def Obligations.DatapathResidueIsUnobservable : Prop :=
  ∀ s s' t : State, Indistinguishable s s' → step s = .next t →
    ∃ t', step s' = .next t' ∧ Indistinguishable t t' ∧ t'.rdata = t.rdata

/-- R148, R54: bytes of MSG at or past LEN never reach a run: any number of core steps gives the same
DIGEST and the same state but for the buffer. -/
def Obligations.BytesPastLenNeverReachARun : Prop :=
  ∀ (n : Nat) (s s' t : State), SameBelowLen s s' →
    takeTurns (List.replicate n .core) s = .next t →
    ∃ t', takeTurns (List.replicate n .core) s' = .next t' ∧ SameBelowLen t t' ∧
      t'.digest = t.digest

/-- R138: a transition of one instance of a platform leaves every other instance as it was. That a
platform is a list of states and a transition one instance's own step is the model's form (log 15,
DESIGN CHOICE): the independence holds by that construction, whatever the step is. -/
def Obligations.InstancesShareNoState : Prop :=
  ∀ (p p' : Platform) (n : Nat), p.step n = .next p' →
    p'.length = p.length ∧ (∀ k, k ≠ n → p'[k]? = p[k]?) ∧
    ∀ s, p[n]? = some s → ∃ s', step s = .next s' ∧ p'[n]? = some s'

/-! ### The host's protocol -/

/-- R66: `loadmsg B` while idle leaves B in MSG[0..L-1], L in LEN, and the run state alone. -/
def Obligations.LoadmsgPlacesTheMessage : Prop :=
  ∀ (s : State) (b : List Byte), s.phase = .idle → b.length ≤ s.msgCap.bytes →
    ∃ t, takeTurns (loadmsgTurns b) s = .next t ∧ t.len.toNat = b.length ∧
      (∀ i, i < b.length → some (t.msgByte i) = b[i]?) ∧
      { t with len := s.len, msg := s.msg, rdata := s.rdata } = s

/-- R66: the `wait` loop reads STATUS and goes round while BUSY is 1, and leaves it otherwise (labels
are line numbers, log 18). -/
def Obligations.WaitLoopsWhileBusy : Prop :=
  ∀ (s : State) (h : HostAgent) (x : Nat), h.lines = pseudoWait 0 x → h.at_ = 0 →
    ∃ h1 h2 t, h.turn s = .next (h1, t) ∧ h1.turn t = .next (h2, t) ∧
      t = { s with rdata := some s.statusWord } ∧ h2.varValue x = s.statusWord ∧
      h2.lines = h.lines ∧
      (s.phase ≠ .idle → h2.at_ = 0) ∧ (s.phase = .idle → h2.at_ = 2)

/-- R125: the digest protocol. B stands in MSG[0..L-1] and L in LEN; after START the core steps and
the host accesses the block in any order, with no CLEAR, no other START and no reset. If STATUS then
shows BUSY 0, it shows DONE 1 and ERR_LEN as before the START, and DIGEST0..7 read out digest(B); and
BUSY is 0 once the core has taken its 114 N + 1 steps. -/
def Obligations.DigestProtocolYieldsTheDigest : Prop :=
  ∀ (s : State) (b : List Byte) (us : List Turn), s.phase = .idle → b.length ≤ s.msgCap.bytes →
    s.len.toNat = b.length → (∀ i, i < b.length → some (s.msgByte i) = b[i]?) →
    (∀ u, u ∈ us → u = .core ∨ ∃ a, u = .access a ∧
      (∀ d, decodeAccess a ≠ .wrCtrlClear d) ∧ ∀ d, decodeAccess a ≠ .wrCtrlStart d) →
    ∃ (t r : State) (w : Word), takeTurns (startTurn :: us) s = .next t ∧
      takeTurn (.access (.read statusOff)) t = .next r ∧ r.rdata = some w ∧
      (w.getLsbD 0 = false → w.getLsbD 1 = true ∧ w.getLsbD 3 = s.errLen ∧
        ∃ d : Words8, assemble d = digestOf b ∧ ∀ k : Fin 8, ∃ q,
          takeTurn (.access (.read (digestOff k))) r = .next q ∧ q.rdata = some (d.get k)) ∧
      (114 * blockCount b.length + 1 ≤ us.count .core → w.getLsbD 0 = false)
end

