-- ==== Sys2Proof/Laws/Components.lean ====
section
/-! SUPPORT. The pure components: the schedule list entry by entry, the indices of one EXPAND, and what
the padder and the parser read of a message. -/

namespace Sys2Proof.Machine

/-! ### The schedule -/

@[simp] theorem scheduleUpTo_length (b : Nat → Word) (n : Nat) :
    (scheduleUpTo b n).length = n := by
  induction n with
  | zero => rfl
  | succ n ih => simp [scheduleUpTo, ih]

/-- Entry i of the first n schedule words is w[i]. -/
theorem scheduleUpTo_getD (b : Nat → Word) {n i : Nat} (h : i < n) :
    (scheduleUpTo b n).getD i 0#32 = scheduleWord b i := by
  induction n with
  | zero => omega
  | succ n ih =>
    simp only [List.getD_eq_getElem?_getD] at ih ⊢
    rcases Nat.lt_or_ge i n with hi | hi
    · rw [scheduleUpTo, List.getElem?_append_left (by simpa using hi)]
      exact ih hi
    · obtain rfl : i = n := by omega
      rw [scheduleUpTo, List.getElem?_append_right (by simp)]
      simp [scheduleWord]

theorem scheduleWord_low (b : Nat → Word) {t : Nat} (h : t < 16) : scheduleWord b t = b t := by
  simp [scheduleWord, nextScheduleWord, h]

/-- w[t] from the words before it, as the sum one EXPAND computes. -/
theorem scheduleWord_high (b : Nat → Word) {t : Nat} (h : 16 ≤ t) :
    scheduleWord b t = expandSum (scheduleWord b (t - 2)) (scheduleWord b (t - 7))
      (scheduleWord b (t - 15)) (scheduleWord b (t - 16)) := by
  conv_lhs => rw [scheduleWord, nextScheduleWord, if_neg (by omega)]
  rw [scheduleUpTo_getD b (by omega), scheduleUpTo_getD b (by omega),
    scheduleUpTo_getD b (by omega), scheduleUpTo_getD b (by omega)]

/-- An index t - n taken in 6 bits does not wrap where n <= t. -/
theorem index_sub {t n : Fin 64} (h : n.val ≤ t.val) : (t - n).val = t.val - n.val :=
  Fin.sub_val_of_le h

/-! ### Vectors of eight words -/

theorem words8_ext {x y : Words8} (h : ∀ k : Fin 8, x.get k = y.get k) : x = y :=
  Vector.ext fun i hi => h ⟨i, hi⟩

/-! ### What the padder and the parser read -/

theorem padByte_congr {m m' : Nat → Byte} {L : Nat} (h : ∀ i, i < L → m i = m' i) (i : Nat) :
    padByte m L i = padByte m' L i := by
  unfold padByte
  split
  · exact h i ‹_›
  · rfl

theorem blockWord_congr {m m' : Nat → Byte} {L : Nat} (h : ∀ i, i < L → m i = m' i) (j i : Nat) :
    blockWord m L j i = blockWord m' L j i := by
  simp only [blockWord, padByte_congr h]

/-- 9 <= padlen(L) <= 72 and T(L) is a whole number of blocks. -/
theorem padLen_bounds (L : Nat) : 9 ≤ padLen L ∧ padLen L ≤ 72 ∧ (L + padLen L) % 64 = 0 := by
  unfold padLen
  split <;> omega

theorem blockCount_eq (L : Nat) : blockCount L = (L + 8) / 64 + 1 := by
  unfold blockCount padTotal padLen
  split <;> omega

theorem blockCount_pos (L : Nat) : 1 ≤ blockCount L := by
  rw [blockCount_eq]; omega

end Sys2Proof.Machine
end

