-- ==== Sys2Proof/Laws/Decode.lean ====
section
/-! SUPPORT. The fields of an offset as numbers, and the region of an offset by its word number
off / 4: what the decode proofs cite, instead of unfolding bit extractions. -/

namespace Sys2Proof.Machine

/-! ### The mask of bits 1:0 -/

theorem mask_getLsbD {i : Nat} (h : i < 32) :
    (0xFFFFFFFC#32).getLsbD i = !decide (i < 2) := by
  interval_cases i <;> decide

theorem alignOff_getLsbD (off : Word) {i : Nat} (h : 2 ≤ i) :
    (alignOff off).getLsbD i = off.getLsbD i := by
  by_cases hi : i < 32
  · have h2 : ¬ i < 2 := by omega
    simp [alignOff, mask_getLsbD hi, h2, -BitVec.getLsbD_eq_getElem]
  · rw [BitVec.getLsbD_of_ge _ _ (by omega), BitVec.getLsbD_of_ge _ _ (by omega)]

theorem alignOff_alignOff (off : Word) : alignOff (alignOff off) = alignOff off := by
  simp [alignOff, BitVec.and_assoc]

theorem offIndex_alignOff (off : Word) : offIndex (alignOff off) = offIndex off := by
  apply BitVec.eq_of_getLsbD_eq; intro i hi
  simp only [offIndex, BitVec.getLsbD_extractLsb', alignOff_getLsbD off (Nat.le_add_right 2 i)]

theorem offHigh_alignOff (off : Word) : offHigh (alignOff off) = offHigh off := by
  apply BitVec.eq_of_getLsbD_eq; intro i hi
  simp only [offHigh, BitVec.getLsbD_extractLsb', alignOff_getLsbD off (show 2 ≤ 6 + i by omega)]

theorem offRegister_alignOff (off : Word) : offRegister (alignOff off) = offRegister off := by
  apply BitVec.eq_of_getLsbD_eq; intro i hi
  simp only [offRegister, BitVec.getLsbD_extractLsb',
    alignOff_getLsbD off (Nat.le_add_right 2 i)]

theorem offDigest_alignOff (off : Word) : offDigest (alignOff off) = offDigest off := by
  unfold offDigest; congr 1
  apply BitVec.eq_of_getLsbD_eq; intro i hi
  simp only [BitVec.getLsbD_extractLsb', alignOff_getLsbD off (Nat.le_add_right 2 i)]

theorem offWindow_alignOff (off : Word) : offWindow (alignOff off) = offWindow off :=
  alignOff_getLsbD off (by omega)

/-! ### Fields as numbers -/

theorem offWindow_iff (off : Word) : offWindow off = true ↔ 2 ^ 29 ≤ off.toNat / 4 := by
  have := off.isLt
  simp only [offWindow, BitVec.getLsbD, Nat.testBit_eq_decide_div_mod_eq, decide_eq_true_eq]
  omega

theorem offIndex_toNat (off : Word) : (offIndex off).toNat = off.toNat / 4 % 2 ^ 29 := by
  simp [offIndex, BitVec.extractLsb'_toNat, Nat.shiftRight_eq_div_pow]

theorem offHigh_toNat (off : Word) : (offHigh off).toNat = off.toNat / 64 := by
  have := off.isLt
  simp only [offHigh, BitVec.extractLsb'_toNat, Nat.shiftRight_eq_div_pow]
  omega

theorem offRegister_toNat (off : Word) : (offRegister off).toNat = off.toNat / 4 % 16 := by
  simp [offRegister, BitVec.extractLsb'_toNat, Nat.shiftRight_eq_div_pow]

theorem offDigest_val (off : Word) : (offDigest off).val = off.toNat / 4 % 8 := by
  simp [offDigest, Nat.shiftRight_eq_div_pow]

theorem alignOff_toNat (off : Word) : (alignOff off).toNat = off.toNat / 4 * 4 := by
  have hs : alignOff off = (off >>> 2) <<< 2 := by
    apply BitVec.eq_of_getLsbD_eq; intro i hi
    simp only [BitVec.getLsbD_shiftLeft, BitVec.getLsbD_ushiftRight, hi, decide_true,
      Bool.true_and]
    rcases Nat.lt_or_ge i 2 with h | h
    · simp [alignOff, mask_getLsbD hi, h, -BitVec.getLsbD_eq_getElem]
    · have h2 : ¬ i < 2 := by omega
      rw [alignOff_getLsbD off h]
      simp only [h2, decide_false, Bool.not_false, Bool.true_and]
      congr 1; omega
  have h := off.isLt
  rw [hs]
  simp [Nat.shiftLeft_eq, Nat.shiftRight_eq_div_pow]
  omega

/-- The case of R56 by the word number off / 4. -/
theorem regionOf_eq (off : Word) : regionOf off =
    if 2 ^ 29 ≤ off.toNat / 4 then .window (BitVec.ofNat 29 (off.toNat / 4 - 2 ^ 29))
    else if off.toNat / 4 < 16 then .register (BitVec.ofNat 4 (off.toNat / 4))
    else .reserved (BitVec.ofNat 29 (off.toNat / 4)) := by
  have hlt := off.isLt
  simp only [regionOf, offWindow_alignOff, offIndex_alignOff, offHigh_alignOff,
    offRegister_alignOff]
  by_cases h : 2 ^ 29 ≤ off.toNat / 4
  · simp only [(offWindow_iff off).2 h, h, if_true]
    refine congrArg Region.window (BitVec.eq_of_toNat_eq ?_)
    rw [offIndex_toNat, BitVec.toNat_ofNat]; omega
  · have hw : offWindow off = false := by rw [← Bool.not_eq_true, offWindow_iff]; exact h
    simp only [hw, h, if_false, Bool.false_eq_true]
    by_cases h2 : off.toNat / 4 < 16
    · rw [if_pos (by apply BitVec.eq_of_toNat_eq; rw [offHigh_toNat]; simp; omega), if_pos h2]
      refine congrArg Region.register (BitVec.eq_of_toNat_eq ?_)
      rw [offRegister_toNat]; simp
    · rw [if_neg (by
        intro hc; have := congrArg BitVec.toNat hc; rw [offHigh_toNat] at this
        simp at this; omega), if_neg h2]
      refine congrArg Region.reserved (BitVec.eq_of_toNat_eq ?_)
      rw [offIndex_toNat]; simp

/-! ### The offsets the encoder writes -/

theorem windowOff_toNat (i : BitVec 29) : (windowOff i).toNat = 2 ^ 31 + 4 * i.toNat := by
  have h := i.isLt
  simp only [windowOff, BitVec.toNat_append]
  rw [← Nat.shiftLeft_add_eq_or_of_lt h, ← Nat.shiftLeft_add_eq_or_of_lt (by decide)]
  simp [Nat.shiftLeft_eq]
  omega

theorem lowOff_toNat (x : BitVec 29) : (lowOff x).toNat = 4 * x.toNat := by
  have h := x.isLt
  simp only [lowOff, BitVec.toNat_append]
  rw [← Nat.shiftLeft_add_eq_or_of_lt h, ← Nat.shiftLeft_add_eq_or_of_lt (by decide)]
  simp [Nat.shiftLeft_eq]
  omega

theorem digestOff_toNat (k : Fin 8) : (digestOff k).toNat = 0x20 + 4 * k.val := by
  revert k; decide

/-- The window word i is read and written at its offset. -/
theorem decodeAccess_windowOff (i : BitVec 29) (d : Word) :
    decodeAccess (.read (windowOff i)) = .rdMsg i ∧
    decodeAccess (.write (windowOff i) d) = .wrMsg i d := by
  have h := i.isLt
  have hr : regionOf (windowOff i) = .window i := by
    have h4 : (2 ^ 31 + 4 * i.toNat) / 4 = 2 ^ 29 + i.toNat := by omega
    rw [regionOf_eq, windowOff_toNat, h4]
    simp
  simp only [decodeAccess, hr, and_self]

end Sys2Proof.Machine
end

