-- ==== Sys2Proof/Laws/State.lean ====
section
/-! SUPPORT. One lemma per field per update of the state, true by unfolding the update once, so that no
later proof unfolds a record update. Where an update is a case distinction, the fields that no case
touches. -/

namespace Sys2Proof.Machine

/-! ### `State.readReturns` -/

@[simp] theorem State.readReturns_hs (s : State) (d : Word) : (s.readReturns d).hs = s.hs := rfl
@[simp] theorem State.readReturns_v (s : State) (d : Word) : (s.readReturns d).v = s.v := rfl
@[simp] theorem State.readReturns_w (s : State) (d : Word) : (s.readReturns d).w = s.w := rfl
@[simp] theorem State.readReturns_phase (s : State) (d : Word) : (s.readReturns d).phase = s.phase := rfl
@[simp] theorem State.readReturns_t (s : State) (d : Word) : (s.readReturns d).t = s.t := rfl
@[simp] theorem State.readReturns_j (s : State) (d : Word) : (s.readReturns d).j = s.j := rfl
@[simp] theorem State.readReturns_done (s : State) (d : Word) : (s.readReturns d).done = s.done := rfl
@[simp] theorem State.readReturns_errBusy (s : State) (d : Word) : (s.readReturns d).errBusy = s.errBusy := rfl
@[simp] theorem State.readReturns_errLen (s : State) (d : Word) : (s.readReturns d).errLen = s.errLen := rfl
@[simp] theorem State.readReturns_len (s : State) (d : Word) : (s.readReturns d).len = s.len := rfl
@[simp] theorem State.readReturns_digest (s : State) (d : Word) : (s.readReturns d).digest = s.digest := rfl
@[simp] theorem State.readReturns_msg (s : State) (d : Word) : (s.readReturns d).msg = s.msg := rfl
@[simp] theorem State.readReturns_msgCap (s : State) (d : Word) : (s.readReturns d).msgCap = s.msgCap := rfl
@[simp] theorem State.readReturns_draw (s : State) (d : Word) : (s.readReturns d).draw = s.draw := rfl
@[simp] theorem State.readReturns_rdata (s : State) (d : Word) : (s.readReturns d).rdata = some d := rfl
@[simp] theorem State.readReturns_turns (s : State) (d : Word) : (s.readReturns d).turns = s.turns := rfl

/-! ### `State.writeReturns` -/

@[simp] theorem State.writeReturns_hs (s : State) : s.writeReturns.hs = s.hs := rfl
@[simp] theorem State.writeReturns_v (s : State) : s.writeReturns.v = s.v := rfl
@[simp] theorem State.writeReturns_w (s : State) : s.writeReturns.w = s.w := rfl
@[simp] theorem State.writeReturns_phase (s : State) : s.writeReturns.phase = s.phase := rfl
@[simp] theorem State.writeReturns_t (s : State) : s.writeReturns.t = s.t := rfl
@[simp] theorem State.writeReturns_j (s : State) : s.writeReturns.j = s.j := rfl
@[simp] theorem State.writeReturns_done (s : State) : s.writeReturns.done = s.done := rfl
@[simp] theorem State.writeReturns_errBusy (s : State) : s.writeReturns.errBusy = s.errBusy := rfl
@[simp] theorem State.writeReturns_errLen (s : State) : s.writeReturns.errLen = s.errLen := rfl
@[simp] theorem State.writeReturns_len (s : State) : s.writeReturns.len = s.len := rfl
@[simp] theorem State.writeReturns_digest (s : State) : s.writeReturns.digest = s.digest := rfl
@[simp] theorem State.writeReturns_msg (s : State) : s.writeReturns.msg = s.msg := rfl
@[simp] theorem State.writeReturns_msgCap (s : State) : s.writeReturns.msgCap = s.msgCap := rfl
@[simp] theorem State.writeReturns_draw (s : State) : s.writeReturns.draw = s.draw := rfl
@[simp] theorem State.writeReturns_rdata (s : State) : s.writeReturns.rdata = none := rfl
@[simp] theorem State.writeReturns_turns (s : State) : s.writeReturns.turns = s.turns := rfl

/-! ### `State.setLen` -/

@[simp] theorem State.setLen_hs (s : State) (d : Word) : (s.setLen d).hs = s.hs := rfl
@[simp] theorem State.setLen_v (s : State) (d : Word) : (s.setLen d).v = s.v := rfl
@[simp] theorem State.setLen_w (s : State) (d : Word) : (s.setLen d).w = s.w := rfl
@[simp] theorem State.setLen_phase (s : State) (d : Word) : (s.setLen d).phase = s.phase := rfl
@[simp] theorem State.setLen_t (s : State) (d : Word) : (s.setLen d).t = s.t := rfl
@[simp] theorem State.setLen_j (s : State) (d : Word) : (s.setLen d).j = s.j := rfl
@[simp] theorem State.setLen_done (s : State) (d : Word) : (s.setLen d).done = s.done := rfl
@[simp] theorem State.setLen_errBusy (s : State) (d : Word) : (s.setLen d).errBusy = s.errBusy := rfl
@[simp] theorem State.setLen_errLen (s : State) (d : Word) : (s.setLen d).errLen = s.errLen := rfl
@[simp] theorem State.setLen_len (s : State) (d : Word) : (s.setLen d).len = d := rfl
@[simp] theorem State.setLen_digest (s : State) (d : Word) : (s.setLen d).digest = s.digest := rfl
@[simp] theorem State.setLen_msg (s : State) (d : Word) : (s.setLen d).msg = s.msg := rfl
@[simp] theorem State.setLen_msgCap (s : State) (d : Word) : (s.setLen d).msgCap = s.msgCap := rfl
@[simp] theorem State.setLen_draw (s : State) (d : Word) : (s.setLen d).draw = s.draw := rfl
@[simp] theorem State.setLen_rdata (s : State) (d : Word) : (s.setLen d).rdata = s.rdata := rfl
@[simp] theorem State.setLen_turns (s : State) (d : Word) : (s.setLen d).turns = s.turns := rfl

/-! ### `State.withTurns` -/

@[simp] theorem State.withTurns_hs (s : State) (us : List Turn) : (s.withTurns us).hs = s.hs := rfl
@[simp] theorem State.withTurns_v (s : State) (us : List Turn) : (s.withTurns us).v = s.v := rfl
@[simp] theorem State.withTurns_w (s : State) (us : List Turn) : (s.withTurns us).w = s.w := rfl
@[simp] theorem State.withTurns_phase (s : State) (us : List Turn) : (s.withTurns us).phase = s.phase := rfl
@[simp] theorem State.withTurns_t (s : State) (us : List Turn) : (s.withTurns us).t = s.t := rfl
@[simp] theorem State.withTurns_j (s : State) (us : List Turn) : (s.withTurns us).j = s.j := rfl
@[simp] theorem State.withTurns_done (s : State) (us : List Turn) : (s.withTurns us).done = s.done := rfl
@[simp] theorem State.withTurns_errBusy (s : State) (us : List Turn) : (s.withTurns us).errBusy = s.errBusy := rfl
@[simp] theorem State.withTurns_errLen (s : State) (us : List Turn) : (s.withTurns us).errLen = s.errLen := rfl
@[simp] theorem State.withTurns_len (s : State) (us : List Turn) : (s.withTurns us).len = s.len := rfl
@[simp] theorem State.withTurns_digest (s : State) (us : List Turn) : (s.withTurns us).digest = s.digest := rfl
@[simp] theorem State.withTurns_msg (s : State) (us : List Turn) : (s.withTurns us).msg = s.msg := rfl
@[simp] theorem State.withTurns_msgCap (s : State) (us : List Turn) : (s.withTurns us).msgCap = s.msgCap := rfl
@[simp] theorem State.withTurns_draw (s : State) (us : List Turn) : (s.withTurns us).draw = s.draw := rfl
@[simp] theorem State.withTurns_rdata (s : State) (us : List Turn) : (s.withTurns us).rdata = s.rdata := rfl
@[simp] theorem State.withTurns_turns (s : State) (us : List Turn) : (s.withTurns us).turns = us := rfl

/-! ### `State.raiseErrBusy` -/

@[simp] theorem State.raiseErrBusy_hs (s : State) : s.raiseErrBusy.hs = s.hs := rfl
@[simp] theorem State.raiseErrBusy_v (s : State) : s.raiseErrBusy.v = s.v := rfl
@[simp] theorem State.raiseErrBusy_w (s : State) : s.raiseErrBusy.w = s.w := rfl
@[simp] theorem State.raiseErrBusy_phase (s : State) : s.raiseErrBusy.phase = s.phase := rfl
@[simp] theorem State.raiseErrBusy_t (s : State) : s.raiseErrBusy.t = s.t := rfl
@[simp] theorem State.raiseErrBusy_j (s : State) : s.raiseErrBusy.j = s.j := rfl
@[simp] theorem State.raiseErrBusy_done (s : State) : s.raiseErrBusy.done = s.done := rfl
@[simp] theorem State.raiseErrBusy_errBusy (s : State) : s.raiseErrBusy.errBusy = true := rfl
@[simp] theorem State.raiseErrBusy_errLen (s : State) : s.raiseErrBusy.errLen = s.errLen := rfl
@[simp] theorem State.raiseErrBusy_len (s : State) : s.raiseErrBusy.len = s.len := rfl
@[simp] theorem State.raiseErrBusy_digest (s : State) : s.raiseErrBusy.digest = s.digest := rfl
@[simp] theorem State.raiseErrBusy_msg (s : State) : s.raiseErrBusy.msg = s.msg := rfl
@[simp] theorem State.raiseErrBusy_msgCap (s : State) : s.raiseErrBusy.msgCap = s.msgCap := rfl
@[simp] theorem State.raiseErrBusy_draw (s : State) : s.raiseErrBusy.draw = s.draw := rfl
@[simp] theorem State.raiseErrBusy_rdata (s : State) : s.raiseErrBusy.rdata = s.rdata := rfl
@[simp] theorem State.raiseErrBusy_turns (s : State) : s.raiseErrBusy.turns = s.turns := rfl

/-! ### `State.raiseErrLen` -/

@[simp] theorem State.raiseErrLen_hs (s : State) : s.raiseErrLen.hs = s.hs := rfl
@[simp] theorem State.raiseErrLen_v (s : State) : s.raiseErrLen.v = s.v := rfl
@[simp] theorem State.raiseErrLen_w (s : State) : s.raiseErrLen.w = s.w := rfl
@[simp] theorem State.raiseErrLen_phase (s : State) : s.raiseErrLen.phase = s.phase := rfl
@[simp] theorem State.raiseErrLen_t (s : State) : s.raiseErrLen.t = s.t := rfl
@[simp] theorem State.raiseErrLen_j (s : State) : s.raiseErrLen.j = s.j := rfl
@[simp] theorem State.raiseErrLen_done (s : State) : s.raiseErrLen.done = s.done := rfl
@[simp] theorem State.raiseErrLen_errBusy (s : State) : s.raiseErrLen.errBusy = s.errBusy := rfl
@[simp] theorem State.raiseErrLen_errLen (s : State) : s.raiseErrLen.errLen = true := rfl
@[simp] theorem State.raiseErrLen_len (s : State) : s.raiseErrLen.len = s.len := rfl
@[simp] theorem State.raiseErrLen_digest (s : State) : s.raiseErrLen.digest = s.digest := rfl
@[simp] theorem State.raiseErrLen_msg (s : State) : s.raiseErrLen.msg = s.msg := rfl
@[simp] theorem State.raiseErrLen_msgCap (s : State) : s.raiseErrLen.msgCap = s.msgCap := rfl
@[simp] theorem State.raiseErrLen_draw (s : State) : s.raiseErrLen.draw = s.draw := rfl
@[simp] theorem State.raiseErrLen_rdata (s : State) : s.raiseErrLen.rdata = s.rdata := rfl
@[simp] theorem State.raiseErrLen_turns (s : State) : s.raiseErrLen.turns = s.turns := rfl

/-! ### `State.clearDone` -/

@[simp] theorem State.clearDone_hs (s : State) : s.clearDone.hs = s.hs := rfl
@[simp] theorem State.clearDone_v (s : State) : s.clearDone.v = s.v := rfl
@[simp] theorem State.clearDone_w (s : State) : s.clearDone.w = s.w := rfl
@[simp] theorem State.clearDone_phase (s : State) : s.clearDone.phase = s.phase := rfl
@[simp] theorem State.clearDone_t (s : State) : s.clearDone.t = s.t := rfl
@[simp] theorem State.clearDone_j (s : State) : s.clearDone.j = s.j := rfl
@[simp] theorem State.clearDone_done (s : State) : s.clearDone.done = false := rfl
@[simp] theorem State.clearDone_errBusy (s : State) : s.clearDone.errBusy = s.errBusy := rfl
@[simp] theorem State.clearDone_errLen (s : State) : s.clearDone.errLen = s.errLen := rfl
@[simp] theorem State.clearDone_len (s : State) : s.clearDone.len = s.len := rfl
@[simp] theorem State.clearDone_digest (s : State) : s.clearDone.digest = s.digest := rfl
@[simp] theorem State.clearDone_msg (s : State) : s.clearDone.msg = s.msg := rfl
@[simp] theorem State.clearDone_msgCap (s : State) : s.clearDone.msgCap = s.msgCap := rfl
@[simp] theorem State.clearDone_draw (s : State) : s.clearDone.draw = s.draw := rfl
@[simp] theorem State.clearDone_rdata (s : State) : s.clearDone.rdata = s.rdata := rfl
@[simp] theorem State.clearDone_turns (s : State) : s.clearDone.turns = s.turns := rfl

/-! ### `State.writeMsgWord` -/

@[simp] theorem State.writeMsgWord_hs (s : State) (i : BitVec 29) (d : Word) : (s.writeMsgWord i d).hs = s.hs := rfl
@[simp] theorem State.writeMsgWord_v (s : State) (i : BitVec 29) (d : Word) : (s.writeMsgWord i d).v = s.v := rfl
@[simp] theorem State.writeMsgWord_w (s : State) (i : BitVec 29) (d : Word) : (s.writeMsgWord i d).w = s.w := rfl
@[simp] theorem State.writeMsgWord_phase (s : State) (i : BitVec 29) (d : Word) : (s.writeMsgWord i d).phase = s.phase := rfl
@[simp] theorem State.writeMsgWord_t (s : State) (i : BitVec 29) (d : Word) : (s.writeMsgWord i d).t = s.t := rfl
@[simp] theorem State.writeMsgWord_j (s : State) (i : BitVec 29) (d : Word) : (s.writeMsgWord i d).j = s.j := rfl
@[simp] theorem State.writeMsgWord_done (s : State) (i : BitVec 29) (d : Word) : (s.writeMsgWord i d).done = s.done := rfl
@[simp] theorem State.writeMsgWord_errBusy (s : State) (i : BitVec 29) (d : Word) : (s.writeMsgWord i d).errBusy = s.errBusy := rfl
@[simp] theorem State.writeMsgWord_errLen (s : State) (i : BitVec 29) (d : Word) : (s.writeMsgWord i d).errLen = s.errLen := rfl
@[simp] theorem State.writeMsgWord_len (s : State) (i : BitVec 29) (d : Word) : (s.writeMsgWord i d).len = s.len := rfl
@[simp] theorem State.writeMsgWord_digest (s : State) (i : BitVec 29) (d : Word) : (s.writeMsgWord i d).digest = s.digest := rfl
@[simp] theorem State.writeMsgWord_msg (s : State) (i : BitVec 29) (d : Word) : (s.writeMsgWord i d).msg = s.msg.writeWord (4 * i.toNat) d := rfl
@[simp] theorem State.writeMsgWord_msgCap (s : State) (i : BitVec 29) (d : Word) : (s.writeMsgWord i d).msgCap = s.msgCap := rfl
@[simp] theorem State.writeMsgWord_draw (s : State) (i : BitVec 29) (d : Word) : (s.writeMsgWord i d).draw = s.draw := rfl
@[simp] theorem State.writeMsgWord_rdata (s : State) (i : BitVec 29) (d : Word) : (s.writeMsgWord i d).rdata = s.rdata := rfl
@[simp] theorem State.writeMsgWord_turns (s : State) (i : BitVec 29) (d : Word) : (s.writeMsgWord i d).turns = s.turns := rfl

/-! ### `State.beginRun` -/

@[simp] theorem State.beginRun_hs (s : State) : s.beginRun.hs = iv := rfl
@[simp] theorem State.beginRun_v (s : State) : s.beginRun.v = s.v := rfl
@[simp] theorem State.beginRun_w (s : State) : s.beginRun.w = s.w := rfl
@[simp] theorem State.beginRun_phase (s : State) : s.beginRun.phase = .load := rfl
@[simp] theorem State.beginRun_t (s : State) : s.beginRun.t = 0 := rfl
@[simp] theorem State.beginRun_j (s : State) : s.beginRun.j = 0 := rfl
@[simp] theorem State.beginRun_done (s : State) : s.beginRun.done = s.done := rfl
@[simp] theorem State.beginRun_errBusy (s : State) : s.beginRun.errBusy = s.errBusy := rfl
@[simp] theorem State.beginRun_errLen (s : State) : s.beginRun.errLen = s.errLen := rfl
@[simp] theorem State.beginRun_len (s : State) : s.beginRun.len = s.len := rfl
@[simp] theorem State.beginRun_digest (s : State) : s.beginRun.digest = s.digest := rfl
@[simp] theorem State.beginRun_msg (s : State) : s.beginRun.msg = s.msg := rfl
@[simp] theorem State.beginRun_msgCap (s : State) : s.beginRun.msgCap = s.msgCap := rfl
@[simp] theorem State.beginRun_draw (s : State) : s.beginRun.draw = s.draw := rfl
@[simp] theorem State.beginRun_rdata (s : State) : s.beginRun.rdata = s.rdata := rfl
@[simp] theorem State.beginRun_turns (s : State) : s.beginRun.turns = s.turns := rfl

/-! ### `State.clearRun` -/

@[simp] theorem State.clearRun_hs (s : State) : s.clearRun.hs = s.hs := rfl
@[simp] theorem State.clearRun_v (s : State) : s.clearRun.v = s.v := rfl
@[simp] theorem State.clearRun_w (s : State) : s.clearRun.w = s.w := rfl
@[simp] theorem State.clearRun_phase (s : State) : s.clearRun.phase = .idle := rfl
@[simp] theorem State.clearRun_t (s : State) : s.clearRun.t = 0 := rfl
@[simp] theorem State.clearRun_j (s : State) : s.clearRun.j = 0 := rfl
@[simp] theorem State.clearRun_done (s : State) : s.clearRun.done = false := rfl
@[simp] theorem State.clearRun_errBusy (s : State) : s.clearRun.errBusy = false := rfl
@[simp] theorem State.clearRun_errLen (s : State) : s.clearRun.errLen = false := rfl
@[simp] theorem State.clearRun_len (s : State) : s.clearRun.len = s.len := rfl
@[simp] theorem State.clearRun_digest (s : State) : s.clearRun.digest = s.digest := rfl
@[simp] theorem State.clearRun_msg (s : State) : s.clearRun.msg = s.msg := rfl
@[simp] theorem State.clearRun_msgCap (s : State) : s.clearRun.msgCap = s.msgCap := rfl
@[simp] theorem State.clearRun_draw (s : State) : s.clearRun.draw = s.draw := rfl
@[simp] theorem State.clearRun_rdata (s : State) : s.clearRun.rdata = s.rdata := rfl
@[simp] theorem State.clearRun_turns (s : State) : s.clearRun.turns = s.turns := rfl

/-! ### `State.resetInput` -/

@[simp] theorem State.resetInput_hs (s : State) : s.resetInput.hs = State.reset.hs := rfl
@[simp] theorem State.resetInput_v (s : State) : s.resetInput.v = State.reset.v := rfl
@[simp] theorem State.resetInput_w (s : State) : s.resetInput.w = State.reset.w := rfl
@[simp] theorem State.resetInput_phase (s : State) : s.resetInput.phase = .idle := rfl
@[simp] theorem State.resetInput_t (s : State) : s.resetInput.t = 0 := rfl
@[simp] theorem State.resetInput_j (s : State) : s.resetInput.j = 0 := rfl
@[simp] theorem State.resetInput_done (s : State) : s.resetInput.done = false := rfl
@[simp] theorem State.resetInput_errBusy (s : State) : s.resetInput.errBusy = false := rfl
@[simp] theorem State.resetInput_errLen (s : State) : s.resetInput.errLen = false := rfl
@[simp] theorem State.resetInput_len (s : State) : s.resetInput.len = 0#32 := rfl
@[simp] theorem State.resetInput_digest (s : State) : s.resetInput.digest = State.reset.digest := rfl
@[simp] theorem State.resetInput_msg (s : State) : s.resetInput.msg = [] := rfl
@[simp] theorem State.resetInput_msgCap (s : State) : s.resetInput.msgCap = s.msgCap := rfl
@[simp] theorem State.resetInput_draw (s : State) : s.resetInput.draw = s.draw + 1 := rfl
@[simp] theorem State.resetInput_rdata (s : State) : s.resetInput.rdata = none := rfl
@[simp] theorem State.resetInput_turns (s : State) : s.resetInput.turns = s.turns := rfl

/-! ### `State.afterLoad` -/

@[simp] theorem State.afterLoad_hs (s : State) : s.afterLoad.hs = s.hs := rfl
@[simp] theorem State.afterLoad_v (s : State) : s.afterLoad.v = s.hs := rfl
@[simp] theorem State.afterLoad_w (s : State) : s.afterLoad.w = s.loadedSchedule := rfl
@[simp] theorem State.afterLoad_phase (s : State) : s.afterLoad.phase = .expand := rfl
@[simp] theorem State.afterLoad_t (s : State) : s.afterLoad.t = 16 := rfl
@[simp] theorem State.afterLoad_j (s : State) : s.afterLoad.j = s.j := rfl
@[simp] theorem State.afterLoad_done (s : State) : s.afterLoad.done = s.done := rfl
@[simp] theorem State.afterLoad_errBusy (s : State) : s.afterLoad.errBusy = s.errBusy := rfl
@[simp] theorem State.afterLoad_errLen (s : State) : s.afterLoad.errLen = s.errLen := rfl
@[simp] theorem State.afterLoad_len (s : State) : s.afterLoad.len = s.len := rfl
@[simp] theorem State.afterLoad_digest (s : State) : s.afterLoad.digest = s.digest := rfl
@[simp] theorem State.afterLoad_msg (s : State) : s.afterLoad.msg = s.msg := rfl
@[simp] theorem State.afterLoad_msgCap (s : State) : s.afterLoad.msgCap = s.msgCap := rfl
@[simp] theorem State.afterLoad_draw (s : State) : s.afterLoad.draw = s.draw := rfl
@[simp] theorem State.afterLoad_rdata (s : State) : s.afterLoad.rdata = s.rdata := rfl
@[simp] theorem State.afterLoad_turns (s : State) : s.afterLoad.turns = s.turns := rfl

/-! ### `State.afterFinal` -/

@[simp] theorem State.afterFinal_hs (s : State) : s.afterFinal.hs = s.hs := rfl
@[simp] theorem State.afterFinal_v (s : State) : s.afterFinal.v = s.v := rfl
@[simp] theorem State.afterFinal_w (s : State) : s.afterFinal.w = s.w := rfl
@[simp] theorem State.afterFinal_phase (s : State) : s.afterFinal.phase = .idle := rfl
@[simp] theorem State.afterFinal_t (s : State) : s.afterFinal.t = s.t := rfl
@[simp] theorem State.afterFinal_j (s : State) : s.afterFinal.j = s.j := rfl
@[simp] theorem State.afterFinal_done (s : State) : s.afterFinal.done = true := rfl
@[simp] theorem State.afterFinal_errBusy (s : State) : s.afterFinal.errBusy = s.errBusy := rfl
@[simp] theorem State.afterFinal_errLen (s : State) : s.afterFinal.errLen = s.errLen := rfl
@[simp] theorem State.afterFinal_len (s : State) : s.afterFinal.len = s.len := rfl
@[simp] theorem State.afterFinal_digest (s : State) : s.afterFinal.digest = s.hs := rfl
@[simp] theorem State.afterFinal_msg (s : State) : s.afterFinal.msg = s.msg := rfl
@[simp] theorem State.afterFinal_msgCap (s : State) : s.afterFinal.msgCap = s.msgCap := rfl
@[simp] theorem State.afterFinal_draw (s : State) : s.afterFinal.draw = s.draw := rfl
@[simp] theorem State.afterFinal_rdata (s : State) : s.afterFinal.rdata = s.rdata := rfl
@[simp] theorem State.afterFinal_turns (s : State) : s.afterFinal.turns = s.turns := rfl

/-! ### `State.startRun` -/

@[simp] theorem State.startRun_v (s : State) : s.startRun.v = s.v := by
  unfold State.startRun; (repeat' split) <;> rfl
@[simp] theorem State.startRun_w (s : State) : s.startRun.w = s.w := by
  unfold State.startRun; (repeat' split) <;> rfl
@[simp] theorem State.startRun_len (s : State) : s.startRun.len = s.len := by
  unfold State.startRun; (repeat' split) <;> rfl
@[simp] theorem State.startRun_digest (s : State) : s.startRun.digest = s.digest := by
  unfold State.startRun; (repeat' split) <;> rfl
@[simp] theorem State.startRun_msg (s : State) : s.startRun.msg = s.msg := by
  unfold State.startRun; (repeat' split) <;> rfl
@[simp] theorem State.startRun_msgCap (s : State) : s.startRun.msgCap = s.msgCap := by
  unfold State.startRun; (repeat' split) <;> rfl
@[simp] theorem State.startRun_draw (s : State) : s.startRun.draw = s.draw := by
  unfold State.startRun; (repeat' split) <;> rfl
@[simp] theorem State.startRun_rdata (s : State) : s.startRun.rdata = s.rdata := by
  unfold State.startRun; (repeat' split) <;> rfl
@[simp] theorem State.startRun_turns (s : State) : s.startRun.turns = s.turns := by
  unfold State.startRun; (repeat' split) <;> rfl

/-! ### `State.writeLen` -/

@[simp] theorem State.writeLen_hs (s : State) (d : Word) : (s.writeLen d).hs = s.hs := by
  unfold State.writeLen; (repeat' split) <;> rfl
@[simp] theorem State.writeLen_v (s : State) (d : Word) : (s.writeLen d).v = s.v := by
  unfold State.writeLen; (repeat' split) <;> rfl
@[simp] theorem State.writeLen_w (s : State) (d : Word) : (s.writeLen d).w = s.w := by
  unfold State.writeLen; (repeat' split) <;> rfl
@[simp] theorem State.writeLen_phase (s : State) (d : Word) : (s.writeLen d).phase = s.phase := by
  unfold State.writeLen; (repeat' split) <;> rfl
@[simp] theorem State.writeLen_t (s : State) (d : Word) : (s.writeLen d).t = s.t := by
  unfold State.writeLen; (repeat' split) <;> rfl
@[simp] theorem State.writeLen_j (s : State) (d : Word) : (s.writeLen d).j = s.j := by
  unfold State.writeLen; (repeat' split) <;> rfl
@[simp] theorem State.writeLen_done (s : State) (d : Word) : (s.writeLen d).done = s.done := by
  unfold State.writeLen; (repeat' split) <;> rfl
@[simp] theorem State.writeLen_errLen (s : State) (d : Word) : (s.writeLen d).errLen = s.errLen := by
  unfold State.writeLen; (repeat' split) <;> rfl
@[simp] theorem State.writeLen_digest (s : State) (d : Word) : (s.writeLen d).digest = s.digest := by
  unfold State.writeLen; (repeat' split) <;> rfl
@[simp] theorem State.writeLen_msg (s : State) (d : Word) : (s.writeLen d).msg = s.msg := by
  unfold State.writeLen; (repeat' split) <;> rfl
@[simp] theorem State.writeLen_msgCap (s : State) (d : Word) : (s.writeLen d).msgCap = s.msgCap := by
  unfold State.writeLen; (repeat' split) <;> rfl
@[simp] theorem State.writeLen_draw (s : State) (d : Word) : (s.writeLen d).draw = s.draw := by
  unfold State.writeLen; (repeat' split) <;> rfl
@[simp] theorem State.writeLen_rdata (s : State) (d : Word) : (s.writeLen d).rdata = s.rdata := by
  unfold State.writeLen; (repeat' split) <;> rfl
@[simp] theorem State.writeLen_turns (s : State) (d : Word) : (s.writeLen d).turns = s.turns := by
  unfold State.writeLen; (repeat' split) <;> rfl

/-! ### `State.writeWindow` -/

@[simp] theorem State.writeWindow_hs (s : State) (i : BitVec 29) (d : Word) : (s.writeWindow i d).hs = s.hs := by
  unfold State.writeWindow; (repeat' split) <;> rfl
@[simp] theorem State.writeWindow_v (s : State) (i : BitVec 29) (d : Word) : (s.writeWindow i d).v = s.v := by
  unfold State.writeWindow; (repeat' split) <;> rfl
@[simp] theorem State.writeWindow_w (s : State) (i : BitVec 29) (d : Word) : (s.writeWindow i d).w = s.w := by
  unfold State.writeWindow; (repeat' split) <;> rfl
@[simp] theorem State.writeWindow_phase (s : State) (i : BitVec 29) (d : Word) : (s.writeWindow i d).phase = s.phase := by
  unfold State.writeWindow; (repeat' split) <;> rfl
@[simp] theorem State.writeWindow_t (s : State) (i : BitVec 29) (d : Word) : (s.writeWindow i d).t = s.t := by
  unfold State.writeWindow; (repeat' split) <;> rfl
@[simp] theorem State.writeWindow_j (s : State) (i : BitVec 29) (d : Word) : (s.writeWindow i d).j = s.j := by
  unfold State.writeWindow; (repeat' split) <;> rfl
@[simp] theorem State.writeWindow_done (s : State) (i : BitVec 29) (d : Word) : (s.writeWindow i d).done = s.done := by
  unfold State.writeWindow; (repeat' split) <;> rfl
@[simp] theorem State.writeWindow_errLen (s : State) (i : BitVec 29) (d : Word) : (s.writeWindow i d).errLen = s.errLen := by
  unfold State.writeWindow; (repeat' split) <;> rfl
@[simp] theorem State.writeWindow_len (s : State) (i : BitVec 29) (d : Word) : (s.writeWindow i d).len = s.len := by
  unfold State.writeWindow; (repeat' split) <;> rfl
@[simp] theorem State.writeWindow_digest (s : State) (i : BitVec 29) (d : Word) : (s.writeWindow i d).digest = s.digest := by
  unfold State.writeWindow; (repeat' split) <;> rfl
@[simp] theorem State.writeWindow_msgCap (s : State) (i : BitVec 29) (d : Word) : (s.writeWindow i d).msgCap = s.msgCap := by
  unfold State.writeWindow; (repeat' split) <;> rfl
@[simp] theorem State.writeWindow_draw (s : State) (i : BitVec 29) (d : Word) : (s.writeWindow i d).draw = s.draw := by
  unfold State.writeWindow; (repeat' split) <;> rfl
@[simp] theorem State.writeWindow_rdata (s : State) (i : BitVec 29) (d : Word) : (s.writeWindow i d).rdata = s.rdata := by
  unfold State.writeWindow; (repeat' split) <;> rfl
@[simp] theorem State.writeWindow_turns (s : State) (i : BitVec 29) (d : Word) : (s.writeWindow i d).turns = s.turns := by
  unfold State.writeWindow; (repeat' split) <;> rfl

/-! ### `State.advance` -/

@[simp] theorem State.advance_hs (s : State) (p : Phase) : (s.advance p).hs = s.hs := by
  unfold State.advance; (repeat' split) <;> rfl
@[simp] theorem State.advance_v (s : State) (p : Phase) : (s.advance p).v = s.v := by
  unfold State.advance; (repeat' split) <;> rfl
@[simp] theorem State.advance_w (s : State) (p : Phase) : (s.advance p).w = s.w := by
  unfold State.advance; (repeat' split) <;> rfl
@[simp] theorem State.advance_j (s : State) (p : Phase) : (s.advance p).j = s.j := by
  unfold State.advance; (repeat' split) <;> rfl
@[simp] theorem State.advance_done (s : State) (p : Phase) : (s.advance p).done = s.done := by
  unfold State.advance; (repeat' split) <;> rfl
@[simp] theorem State.advance_errBusy (s : State) (p : Phase) : (s.advance p).errBusy = s.errBusy := by
  unfold State.advance; (repeat' split) <;> rfl
@[simp] theorem State.advance_errLen (s : State) (p : Phase) : (s.advance p).errLen = s.errLen := by
  unfold State.advance; (repeat' split) <;> rfl
@[simp] theorem State.advance_len (s : State) (p : Phase) : (s.advance p).len = s.len := by
  unfold State.advance; (repeat' split) <;> rfl
@[simp] theorem State.advance_digest (s : State) (p : Phase) : (s.advance p).digest = s.digest := by
  unfold State.advance; (repeat' split) <;> rfl
@[simp] theorem State.advance_msg (s : State) (p : Phase) : (s.advance p).msg = s.msg := by
  unfold State.advance; (repeat' split) <;> rfl
@[simp] theorem State.advance_msgCap (s : State) (p : Phase) : (s.advance p).msgCap = s.msgCap := by
  unfold State.advance; (repeat' split) <;> rfl
@[simp] theorem State.advance_draw (s : State) (p : Phase) : (s.advance p).draw = s.draw := by
  unfold State.advance; (repeat' split) <;> rfl
@[simp] theorem State.advance_rdata (s : State) (p : Phase) : (s.advance p).rdata = s.rdata := by
  unfold State.advance; (repeat' split) <;> rfl
@[simp] theorem State.advance_turns (s : State) (p : Phase) : (s.advance p).turns = s.turns := by
  unfold State.advance; (repeat' split) <;> rfl

/-! ### `State.afterAccum` -/

@[simp] theorem State.afterAccum_v (s : State) : s.afterAccum.v = s.v := by
  unfold State.afterAccum; (repeat' split) <;> rfl
@[simp] theorem State.afterAccum_w (s : State) : s.afterAccum.w = s.w := by
  unfold State.afterAccum; (repeat' split) <;> rfl
@[simp] theorem State.afterAccum_t (s : State) : s.afterAccum.t = s.t := by
  unfold State.afterAccum; (repeat' split) <;> rfl
@[simp] theorem State.afterAccum_done (s : State) : s.afterAccum.done = s.done := by
  unfold State.afterAccum; (repeat' split) <;> rfl
@[simp] theorem State.afterAccum_errBusy (s : State) : s.afterAccum.errBusy = s.errBusy := by
  unfold State.afterAccum; (repeat' split) <;> rfl
@[simp] theorem State.afterAccum_errLen (s : State) : s.afterAccum.errLen = s.errLen := by
  unfold State.afterAccum; (repeat' split) <;> rfl
@[simp] theorem State.afterAccum_len (s : State) : s.afterAccum.len = s.len := by
  unfold State.afterAccum; (repeat' split) <;> rfl
@[simp] theorem State.afterAccum_digest (s : State) : s.afterAccum.digest = s.digest := by
  unfold State.afterAccum; (repeat' split) <;> rfl
@[simp] theorem State.afterAccum_msg (s : State) : s.afterAccum.msg = s.msg := by
  unfold State.afterAccum; (repeat' split) <;> rfl
@[simp] theorem State.afterAccum_msgCap (s : State) : s.afterAccum.msgCap = s.msgCap := by
  unfold State.afterAccum; (repeat' split) <;> rfl
@[simp] theorem State.afterAccum_draw (s : State) : s.afterAccum.draw = s.draw := by
  unfold State.afterAccum; (repeat' split) <;> rfl
@[simp] theorem State.afterAccum_rdata (s : State) : s.afterAccum.rdata = s.rdata := by
  unfold State.afterAccum; (repeat' split) <;> rfl
@[simp] theorem State.afterAccum_turns (s : State) : s.afterAccum.turns = s.turns := by
  unfold State.afterAccum; (repeat' split) <;> rfl

/-! ### `State.afterExpand` -/

@[simp] theorem State.afterExpand_hs (s : State) : s.afterExpand.hs = s.hs := by
  simp [State.afterExpand]
@[simp] theorem State.afterExpand_v (s : State) : s.afterExpand.v = s.v := by
  simp [State.afterExpand]
@[simp] theorem State.afterExpand_w (s : State) : s.afterExpand.w = s.w.set s.t (expandWord s.w s.t) := by
  simp [State.afterExpand]
@[simp] theorem State.afterExpand_j (s : State) : s.afterExpand.j = s.j := by
  simp [State.afterExpand]
@[simp] theorem State.afterExpand_done (s : State) : s.afterExpand.done = s.done := by
  simp [State.afterExpand]
@[simp] theorem State.afterExpand_errBusy (s : State) : s.afterExpand.errBusy = s.errBusy := by
  simp [State.afterExpand]
@[simp] theorem State.afterExpand_errLen (s : State) : s.afterExpand.errLen = s.errLen := by
  simp [State.afterExpand]
@[simp] theorem State.afterExpand_len (s : State) : s.afterExpand.len = s.len := by
  simp [State.afterExpand]
@[simp] theorem State.afterExpand_digest (s : State) : s.afterExpand.digest = s.digest := by
  simp [State.afterExpand]
@[simp] theorem State.afterExpand_msg (s : State) : s.afterExpand.msg = s.msg := by
  simp [State.afterExpand]
@[simp] theorem State.afterExpand_msgCap (s : State) : s.afterExpand.msgCap = s.msgCap := by
  simp [State.afterExpand]
@[simp] theorem State.afterExpand_draw (s : State) : s.afterExpand.draw = s.draw := by
  simp [State.afterExpand]
@[simp] theorem State.afterExpand_rdata (s : State) : s.afterExpand.rdata = s.rdata := by
  simp [State.afterExpand]
@[simp] theorem State.afterExpand_turns (s : State) : s.afterExpand.turns = s.turns := by
  simp [State.afterExpand]

/-! ### `State.afterRound` -/

@[simp] theorem State.afterRound_hs (s : State) : s.afterRound.hs = s.hs := by
  simp [State.afterRound]
@[simp] theorem State.afterRound_v (s : State) : s.afterRound.v = roundStep s.t.val s.v (s.w.get s.t) := by
  simp [State.afterRound]
@[simp] theorem State.afterRound_w (s : State) : s.afterRound.w = s.w := by
  simp [State.afterRound]
@[simp] theorem State.afterRound_j (s : State) : s.afterRound.j = s.j := by
  simp [State.afterRound]
@[simp] theorem State.afterRound_done (s : State) : s.afterRound.done = s.done := by
  simp [State.afterRound]
@[simp] theorem State.afterRound_errBusy (s : State) : s.afterRound.errBusy = s.errBusy := by
  simp [State.afterRound]
@[simp] theorem State.afterRound_errLen (s : State) : s.afterRound.errLen = s.errLen := by
  simp [State.afterRound]
@[simp] theorem State.afterRound_len (s : State) : s.afterRound.len = s.len := by
  simp [State.afterRound]
@[simp] theorem State.afterRound_digest (s : State) : s.afterRound.digest = s.digest := by
  simp [State.afterRound]
@[simp] theorem State.afterRound_msg (s : State) : s.afterRound.msg = s.msg := by
  simp [State.afterRound]
@[simp] theorem State.afterRound_msgCap (s : State) : s.afterRound.msgCap = s.msgCap := by
  simp [State.afterRound]
@[simp] theorem State.afterRound_draw (s : State) : s.afterRound.draw = s.draw := by
  simp [State.afterRound]
@[simp] theorem State.afterRound_rdata (s : State) : s.afterRound.rdata = s.rdata := by
  simp [State.afterRound]
@[simp] theorem State.afterRound_turns (s : State) : s.afterRound.turns = s.turns := by
  simp [State.afterRound]

end Sys2Proof.Machine
end

