-- ==== Sys2Proof/Laws/Memory.lean ====
section
/-! SUPPORT. What the operations over the message buffer and the byte lanes do, said once: read after
write, the canonical form, and lanes against BE32. -/

namespace Sys2Proof.Machine

/-! ### Byte lanes -/

theorem be32_toNat (a b c d : Byte) : (be32 a b c d).toNat =
    a.toNat * 2 ^ 24 + b.toNat * 2 ^ 16 + c.toNat * 2 ^ 8 + d.toNat := by
  have ha := a.isLt; have hb := b.isLt; have hc := c.isLt; have hd := d.isLt
  simp only [be32, BitVec.toNat_append]
  rw [← Nat.shiftLeft_add_eq_or_of_lt hb, ← Nat.shiftLeft_add_eq_or_of_lt hc,
    ← Nat.shiftLeft_add_eq_or_of_lt hd]
  simp only [Nat.shiftLeft_eq]
  omega

theorem lane_toNat (d : Word) (m : Nat) :
    (lane d m).toNat = d.toNat / 2 ^ (24 - 8 * m) % 2 ^ 8 := by
  simp [lane, BitVec.extractLsb'_toNat, Nat.shiftRight_eq_div_pow]

theorem be32_lanes (d : Word) : be32 (lane d 0) (lane d 1) (lane d 2) (lane d 3) = d := by
  have h := d.isLt
  apply BitVec.eq_of_toNat_eq
  simp only [be32_toNat, lane_toNat]
  omega

/-! ### The buffer -/

@[simp] theorem Memory.read?_nil (a : Nat) : Memory.read? [] a = none := rfl

@[simp] theorem Memory.read?_write_same (m : Memory) (a : Nat) (y : Byte) :
    (m.write a y).read? a = some y := by
  induction m with
  | nil => simp [Memory.write, Memory.read?]
  | cons c m ih =>
    obtain ⟨b, x⟩ := c
    simp only [Memory.write]
    split
    · simp [Memory.read?]
    · split
      · simp [Memory.read?]
      · simp [Memory.read?, *]

theorem Memory.read?_write_ne (m : Memory) (a n : Nat) (y : Byte) (h : n ≠ a) :
    (m.write a y).read? n = m.read? n := by
  induction m with
  | nil => simp [Memory.write, Memory.read?, h]
  | cons c m ih =>
    obtain ⟨b, x⟩ := c
    simp only [Memory.write]
    split
    · simp [Memory.read?, h]
    · split
      · subst_vars; simp [Memory.read?, h]
      · simp [Memory.read?, ih]

/-- A write lists the byte written and otherwise only what was listed. -/
theorem Memory.mem_write {m : Memory} {a : Nat} {y : Byte} {c : Host.Cell}
    (h : c ∈ m.write a y) : c = (a, y) ∨ c ∈ m := by
  induction m with
  | nil => simpa [Memory.write] using h
  | cons d m ih =>
    obtain ⟨b, x⟩ := d
    simp only [Memory.write] at h
    split at h
    · simpa using h
    · split at h
      · rcases List.mem_cons.1 h with h | h
        · exact .inl h
        · exact .inr (List.mem_cons_of_mem _ h)
      · rcases List.mem_cons.1 h with h | h
        · exact .inr (by simp [h])
        · exact (ih h).imp id (List.mem_cons_of_mem _)

/-- Every write keeps the canonical form. -/
theorem Memory.wf_write {m : Memory} (hm : m.wf) (a : Nat) (y : Byte) : (m.write a y).wf := by
  induction m with
  | nil => simp [Memory.write, Memory.wf]
  | cons c m ih =>
    obtain ⟨b, x⟩ := c
    have hm' := List.pairwise_cons.1 hm
    simp only [Memory.write]
    split
    · refine List.pairwise_cons.2 ⟨fun d hd => ?_, hm⟩
      rcases List.mem_cons.1 hd with rfl | hd
      · assumption
      · exact lt_trans (by assumption) (hm'.1 d hd)
    · split
      · subst_vars; exact List.pairwise_cons.2 ⟨hm'.1, hm'.2⟩
      · refine List.pairwise_cons.2 ⟨fun d hd => ?_, ih hm'.2⟩
        rcases Memory.mem_write hd with rfl | hd
        · simp; omega
        · exact hm'.1 d hd

theorem Memory.wf_writeWord {m : Memory} (hm : m.wf) (a : Nat) (d : Word) : (m.writeWord a d).wf :=
  Memory.wf_write (Memory.wf_write (Memory.wf_write (Memory.wf_write hm _ _) _ _) _ _) _ _

/-- The buffer after reset is in canonical form. -/
theorem Memory.wf_reset : State.reset.msg.wf := List.Pairwise.nil

theorem Memory.mem_writeWord {m : Memory} {a : Nat} {d : Word} {c : Host.Cell}
    (h : c ∈ m.writeWord a d) : c ∈ m ∨ (a ≤ c.1 ∧ c.1 < a + 4) := by
  rcases Memory.mem_write h with rfl | h
  · right; simp
  rcases Memory.mem_write h with rfl | h
  · right; simp
  rcases Memory.mem_write h with rfl | h
  · right; simp
  rcases Memory.mem_write h with rfl | h
  · right; simp
  exact .inl h

/-- The four bytes a word write stores. -/
theorem Memory.read?_writeWord_lane (m : Memory) (a n : Nat) (d : Word) (h : n < 4) :
    (m.writeWord a d).read? (a + n) = some (lane d n) := by
  unfold Memory.writeWord
  obtain rfl | rfl | rfl | rfl : n = 0 ∨ n = 1 ∨ n = 2 ∨ n = 3 := by omega
  · rw [Memory.read?_write_ne _ _ _ _ (by omega), Memory.read?_write_ne _ _ _ _ (by omega),
      Memory.read?_write_ne _ _ _ _ (by omega)]
    exact Memory.read?_write_same _ _ _
  · rw [Memory.read?_write_ne _ _ _ _ (by omega), Memory.read?_write_ne _ _ _ _ (by omega)]
    exact Memory.read?_write_same _ _ _
  · rw [Memory.read?_write_ne _ _ _ _ (by omega)]
    exact Memory.read?_write_same _ _ _
  · exact Memory.read?_write_same _ _ _

theorem Memory.read?_writeWord_ne (m : Memory) (a n : Nat) (d : Word) (h : n < a ∨ a + 4 ≤ n) :
    (m.writeWord a d).read? n = m.read? n := by
  unfold Memory.writeWord
  rw [Memory.read?_write_ne _ _ _ _ (by omega), Memory.read?_write_ne _ _ _ _ (by omega),
    Memory.read?_write_ne _ _ _ _ (by omega), Memory.read?_write_ne _ _ _ _ (by omega)]

/-- MSG[a] depends on the buffer and the draw alone. -/
theorem State.msgByte_congr {s s' : State} (hm : s.msg = s'.msg) (hd : s.draw = s'.draw) (a : Nat) :
    s.msgByte a = s'.msgByte a := by
  simp only [State.msgByte, hm, hd]

theorem State.msgByte_writeMsgWord_lane (s : State) (i : BitVec 29) (d : Word) (n : Nat)
    (h : n < 4) : (s.writeMsgWord i d).msgByte (4 * i.toNat + n) = lane d n := by
  simp [State.msgByte, Memory.read?_writeWord_lane _ _ _ _ h]

theorem State.msgByte_writeMsgWord_ne (s : State) (i : BitVec 29) (d : Word) (a : Nat)
    (h : a < 4 * i.toNat ∨ 4 * i.toNat + 4 ≤ a) :
    (s.writeMsgWord i d).msgByte a = s.msgByte a := by
  simp [State.msgByte, Memory.read?_writeWord_ne _ _ _ _ h]

/-- A window word depends on its four bytes alone. -/
theorem State.msgWord_congr {s s' : State} {i : BitVec 29}
    (h : ∀ n, n < 4 → s.msgByte (4 * i.toNat + n) = s'.msgByte (4 * i.toNat + n)) :
    s.msgWord i = s'.msgWord i := by
  have h0 := h 0 (by omega); have h1 := h 1 (by omega)
  have h2 := h 2 (by omega); have h3 := h 3 (by omega)
  simp only [Nat.add_zero] at h0
  simp only [State.msgWord, h0, h1, h2, h3]

theorem State.msgWord_writeMsgWord_same (s : State) (i : BitVec 29) (d : Word) :
    (s.writeMsgWord i d).msgWord i = d := by
  have h0 := s.msgByte_writeMsgWord_lane i d 0 (by omega)
  have h1 := s.msgByte_writeMsgWord_lane i d 1 (by omega)
  have h2 := s.msgByte_writeMsgWord_lane i d 2 (by omega)
  have h3 := s.msgByte_writeMsgWord_lane i d 3 (by omega)
  simp only [Nat.add_zero] at h0
  simp only [State.msgWord, h0, h1, h2, h3, be32_lanes]

theorem State.inCapacity_iff (s : State) (i : BitVec 29) :
    s.inCapacity i = true ↔ 4 * i.toNat + 4 ≤ s.msgCap.bytes := by
  simp [State.inCapacity]

theorem msgCap_bytes_legal (c : MsgCap) :
    c.bytes % 4 = 0 ∧ 4 ≤ c.bytes ∧ c.bytes ≤ 2 ^ 31 := by
  have := c.wordsLessOne.isLt
  unfold MsgCap.bytes
  omega

/-- Every legal capacity is a value of `MsgCap` (R8). -/
theorem msgCap_every_legal_value (n : Nat) (h4 : n % 4 = 0) (hl : 4 ≤ n) (hu : n ≤ 2 ^ 31) :
    ∃ c : MsgCap, c.bytes = n := by
  refine ⟨⟨BitVec.ofNat 29 (n / 4 - 1)⟩, ?_⟩
  simp only [MsgCap.bytes, BitVec.toNat_ofNat]
  rw [Nat.mod_eq_of_lt (by omega)]
  omega

end Sys2Proof.Machine
end

