-- ==== Sys2Proof/Laws/PerInstr.lean ====
section
/-! SUPPORT. Statements per instruction. The family AlignedCode: the code of an instruction has the
ignored offset bits 1:0 zero, so clearing them gives it back (R39). -/

namespace Sys2Proof.Laws.AlignedCode
open Sys2Proof Sys2Proof.Machine

/-- The access that encodes i, if it is one, is aligned. -/
def Statement (i : Instr) : Prop := ∀ a : Access, encode i = .access a → a.aligned = a

theorem alignOff_windowOff (i : BitVec 29) : alignOff (windowOff i) = windowOff i :=
  BitVec.eq_of_toNat_eq (by rw [alignOff_toNat, windowOff_toNat]; omega)

theorem alignOff_lowOff (x : BitVec 29) : alignOff (lowOff x) = lowOff x :=
  BitVec.eq_of_toNat_eq (by rw [alignOff_toNat, lowOff_toNat]; omega)

theorem alignOff_digestOff (k : Fin 8) : alignOff (digestOff k) = digestOff k := by
  revert k; decide

theorem rdCtrl : Statement .rdCtrl := by
  intro a h; cases h; rfl

theorem wrCtrlClear (d : Word) : Statement (.wrCtrlClear d) := by
  intro a h; cases h; rfl

theorem wrCtrlStart (d : Word) : Statement (.wrCtrlStart d) := by
  intro a h; cases h; rfl

theorem wrCtrlNop (d : Word) : Statement (.wrCtrlNop d) := by
  intro a h; cases h; rfl

theorem rdStatus : Statement .rdStatus := by
  intro a h; cases h; rfl

theorem wrStatus (d : Word) : Statement (.wrStatus d) := by
  intro a h; cases h; rfl

theorem rdLen : Statement .rdLen := by
  intro a h; cases h; rfl

theorem wrLen (d : Word) : Statement (.wrLen d) := by
  intro a h; cases h; rfl

theorem rdMsgcap : Statement .rdMsgcap := by
  intro a h; cases h; rfl

theorem wrMsgcap (d : Word) : Statement (.wrMsgcap d) := by
  intro a h; cases h; rfl

theorem rdDigest (k : Fin 8) : Statement (.rdDigest k) := by
  intro a h; cases h; simp only [Access.aligned, alignOff_digestOff]

theorem wrDigest (k : Fin 8) (d : Word) : Statement (.wrDigest k d) := by
  intro a h; cases h; simp only [Access.aligned, alignOff_digestOff]

theorem rdMsg (i : BitVec 29) : Statement (.rdMsg i) := by
  intro a h; cases h; simp only [Access.aligned, alignOff_windowOff]

theorem wrMsg (i : BitVec 29) (d : Word) : Statement (.wrMsg i d) := by
  intro a h; cases h; simp only [Access.aligned, alignOff_windowOff]

theorem rdRsvd (x : BitVec 29) : Statement (.rdRsvd x) := by
  intro a h; cases h; simp only [Access.aligned, alignOff_lowOff]

theorem wrRsvd (x : BitVec 29) (d : Word) : Statement (.wrRsvd x d) := by
  intro a h; cases h; simp only [Access.aligned, alignOff_lowOff]

theorem stepLoad : Statement .stepLoad := by
  intro a h; simp [encode] at h

theorem stepExpand : Statement .stepExpand := by
  intro a h; simp [encode] at h

theorem stepRound : Statement .stepRound := by
  intro a h; simp [encode] at h

theorem stepAccum : Statement .stepAccum := by
  intro a h; simp [encode] at h

theorem stepFinal : Statement .stepFinal := by
  intro a h; simp [encode] at h

end Sys2Proof.Laws.AlignedCode
end

