-- ==== Sys2Proof/Laws/Step.lean ====
section
/-! SUPPORT. What one transition can do, said once: the host operations, the core's turn, and the
frame that every instruction keeps. Later proofs cite these and do not unfold `exec`. -/

namespace Sys2Proof.Machine

/-! ### Conditions -/

theorem State.busy_iff (s : State) : s.busy = true ↔ s.phase ≠ .idle := by
  cases h : s.phase <;> simp [State.busy, h]

theorem State.busy_false_iff (s : State) : s.busy = false ↔ s.phase = .idle := by
  cases h : s.phase <;> simp [State.busy, h]

theorem State.startRun_busy {s : State} (h : s.phase ≠ .idle) : s.startRun = s.raiseErrBusy := by
  simp [State.startRun, s.busy_iff.2 h]

theorem State.startRun_rejected {s : State} (h : s.phase = .idle)
    (hl : s.msgCap.bytes < s.len.toNat) : s.startRun = s.clearDone.raiseErrLen := by
  simp [State.startRun, s.busy_false_iff.2 h, hl]

theorem State.startRun_accepted {s : State} (h : s.phase = .idle)
    (hl : s.len.toNat ≤ s.msgCap.bytes) : s.startRun = s.clearDone.beginRun := by
  simp [State.startRun, s.busy_false_iff.2 h, Nat.not_lt.2 hl]

theorem State.writeLen_busy {s : State} (h : s.phase ≠ .idle) (d : Word) :
    s.writeLen d = s.raiseErrBusy := by
  simp [State.writeLen, s.busy_iff.2 h]

theorem State.writeLen_idle {s : State} (h : s.phase = .idle) (d : Word) :
    s.writeLen d = s.setLen d := by
  simp [State.writeLen, s.busy_false_iff.2 h]

theorem State.writeWindow_beyond {s : State} {i : BitVec 29}
    (h : s.msgCap.bytes < 4 * i.toNat + 4) (d : Word) : s.writeWindow i d = s := by
  simp [State.writeWindow, State.inCapacity, h]

theorem State.writeWindow_busy {s : State} {i : BitVec 29}
    (h : 4 * i.toNat + 4 ≤ s.msgCap.bytes) (hb : s.phase ≠ .idle) (d : Word) :
    s.writeWindow i d = s.raiseErrBusy := by
  simp [State.writeWindow, State.inCapacity, Nat.not_lt.2 h, s.busy_iff.2 hb]

theorem State.writeWindow_idle {s : State} {i : BitVec 29}
    (h : 4 * i.toNat + 4 ≤ s.msgCap.bytes) (hb : s.phase = .idle) (d : Word) :
    s.writeWindow i d = s.writeMsgWord i d := by
  simp [State.writeWindow, State.inCapacity, Nat.not_lt.2 h, s.busy_false_iff.2 hb]

/-! ### The three answers of an access that may be rejected -/

theorem State.startRun_cases (s : State) :
    (s.phase ≠ .idle ∧ s.startRun = s.raiseErrBusy) ∨
    (s.phase = .idle ∧ s.msgCap.bytes < s.len.toNat ∧ s.startRun = s.clearDone.raiseErrLen) ∨
    (s.phase = .idle ∧ s.len.toNat ≤ s.msgCap.bytes ∧ s.startRun = s.clearDone.beginRun) := by
  by_cases h : s.phase = .idle
  · rcases Nat.lt_or_ge s.msgCap.bytes s.len.toNat with hl | hl
    · exact .inr (.inl ⟨h, hl, State.startRun_rejected h hl⟩)
    · exact .inr (.inr ⟨h, hl, State.startRun_accepted h hl⟩)
  · exact .inl ⟨h, State.startRun_busy h⟩

theorem State.writeLen_cases (s : State) (d : Word) :
    (s.phase ≠ .idle ∧ s.writeLen d = s.raiseErrBusy) ∨
    (s.phase = .idle ∧ s.writeLen d = s.setLen d) := by
  by_cases h : s.phase = .idle
  · exact .inr ⟨h, State.writeLen_idle h d⟩
  · exact .inl ⟨h, State.writeLen_busy h d⟩

theorem State.writeWindow_cases (s : State) (i : BitVec 29) (d : Word) :
    (s.msgCap.bytes < 4 * i.toNat + 4 ∧ s.writeWindow i d = s) ∨
    (4 * i.toNat + 4 ≤ s.msgCap.bytes ∧ s.phase ≠ .idle ∧ s.writeWindow i d = s.raiseErrBusy) ∨
    (4 * i.toNat + 4 ≤ s.msgCap.bytes ∧ s.phase = .idle ∧
      s.writeWindow i d = s.writeMsgWord i d) := by
  rcases Nat.lt_or_ge s.msgCap.bytes (4 * i.toNat + 4) with hl | hl
  · exact .inl ⟨hl, State.writeWindow_beyond hl d⟩
  · by_cases h : s.phase = .idle
    · exact .inr (.inr ⟨hl, h, State.writeWindow_idle hl h d⟩)
    · exact .inr (.inl ⟨hl, h, State.writeWindow_busy hl h d⟩)

/-! ### Host operations -/

/-- Every host operation answers a next state, one of six kinds. -/
theorem hostOp_cases {i : Instr} (hi : selectingPhase i = none) (s : State) :
    ∃ t, exec i s = .next t ∧
      ((∃ d, t = s.readReturns d) ∨ t = s.writeReturns ∨
       (∃ d, i = .wrCtrlClear d ∧ t = s.clearRun.writeReturns) ∨
       (∃ d, i = .wrCtrlStart d ∧ t = s.startRun.writeReturns) ∨
       (∃ d, i = .wrLen d ∧ t = (s.writeLen d).writeReturns) ∨
       (∃ n d, i = .wrMsg n d ∧ t = (s.writeWindow n d).writeReturns)) := by
  cases i <;> first
    | simp [selectingPhase] at hi; done
    | exact ⟨_, rfl, .inl ⟨_, rfl⟩⟩
    | exact ⟨_, rfl, .inr (.inl rfl)⟩
    | exact ⟨_, rfl, .inr (.inr (.inl ⟨_, rfl, rfl⟩))⟩
    | exact ⟨_, rfl, .inr (.inr (.inr (.inl ⟨_, rfl, rfl⟩)))⟩
    | exact ⟨_, rfl, .inr (.inr (.inr (.inr (.inl ⟨_, rfl, rfl⟩))))⟩
    | exact ⟨_, rfl, .inr (.inr (.inr (.inr (.inr ⟨_, _, rfl, rfl⟩))))⟩

/-- A host access decodes to a host operation. -/
theorem selectingPhase_decodeAccess (a : Access) : selectingPhase (decodeAccess a) = none := by
  have hr : ∀ r off, selectingPhase (decodeRegisterRead r off) = none := by
    intro r off; unfold decodeRegisterRead; (repeat' split) <;> rfl
  have hw : ∀ r off d, selectingPhase (decodeRegisterWrite r off d) = none := by
    intro r off d; unfold decodeRegisterWrite decodeCtrlWrite; (repeat' split) <;> rfl
  cases a <;> simp only [decodeAccess] <;> split <;> first | rfl | exact hr _ _ | exact hw _ _ _

/-! ### Sequencer steps -/

@[simp] theorem decodePhase_codeOfPhase (p : Phase) :
    decodePhase (codeOfPhase p) = stepOfPhase p := by
  cases p <;> rfl

/-- A turn of the core answers a next state: nothing in IDLE, else the step of the phase. -/
theorem coreTurn_cases (s : State) :
    (s.phase = .idle ∧ coreTurn s = .next s) ∨
    (s.phase = .load ∧ coreTurn s = .next s.afterLoad) ∨
    (s.phase = .expand ∧ coreTurn s = .next s.afterExpand) ∨
    (s.phase = .round ∧ coreTurn s = .next s.afterRound) ∨
    (s.phase = .accum ∧ coreTurn s = .next s.afterAccum) ∨
    (s.phase = .final ∧ coreTurn s = .next s.afterFinal) := by
  cases h : s.phase <;>
    simp [coreTurn, h, stepOfPhase, exec, execStepLoad, execStepExpand, execStepRound,
      execStepAccum, execStepFinal]

theorem coreTurn_idle {s : State} (h : s.phase = .idle) : coreTurn s = .next s := by
  rcases coreTurn_cases s with c | c | c | c | c | c <;> simp_all

theorem coreTurn_load {s : State} (h : s.phase = .load) : coreTurn s = .next s.afterLoad := by
  rcases coreTurn_cases s with c | c | c | c | c | c <;> simp_all

theorem coreTurn_expand {s : State} (h : s.phase = .expand) :
    coreTurn s = .next s.afterExpand := by
  rcases coreTurn_cases s with c | c | c | c | c | c <;> simp_all

theorem coreTurn_round {s : State} (h : s.phase = .round) : coreTurn s = .next s.afterRound := by
  rcases coreTurn_cases s with c | c | c | c | c | c <;> simp_all

theorem coreTurn_accum {s : State} (h : s.phase = .accum) : coreTurn s = .next s.afterAccum := by
  rcases coreTurn_cases s with c | c | c | c | c | c <;> simp_all

theorem coreTurn_final {s : State} (h : s.phase = .final) : coreTurn s = .next s.afterFinal := by
  rcases coreTurn_cases s with c | c | c | c | c | c <;> simp_all

/-- A sequencer step that answers was enabled, and is the core's turn. -/
theorem execStep_next {i : Instr} {p : Phase} (hp : selectingPhase i = some p) {s t : State}
    (h : exec i s = .next t) : s.phase = p ∧ coreTurn s = .next t := by
  cases i <;> simp only [selectingPhase, reduceCtorEq, Option.some.injEq] at hp <;> subst hp <;>
    simp only [exec, execStepLoad, execStepExpand, execStepRound, execStepAccum,
      execStepFinal] at h <;> split at h <;>
    first
    | (simp at h; done)
    | rename_i hs; refine ⟨hs, h ▸ ?_⟩
      first
      | exact coreTurn_load hs
      | exact coreTurn_expand hs
      | exact coreTurn_round hs
      | exact coreTurn_accum hs
      | exact coreTurn_final hs

/-- What a host operation that answers left. -/
theorem hostOp_next {i : Instr} (hi : selectingPhase i = none) {s t : State}
    (h : exec i s = .next t) :
    (∃ d, t = s.readReturns d) ∨ t = s.writeReturns ∨
    (∃ d, i = .wrCtrlClear d ∧ t = s.clearRun.writeReturns) ∨
    (∃ d, i = .wrCtrlStart d ∧ t = s.startRun.writeReturns) ∨
    (∃ d, i = .wrLen d ∧ t = (s.writeLen d).writeReturns) ∨
    (∃ n d, i = .wrMsg n d ∧ t = (s.writeWindow n d).writeReturns) := by
  obtain ⟨t', ht, hc⟩ := hostOp_cases hi s
  rw [h] at ht
  exact Host.Outcome.next.inj ht ▸ hc

/-- What a turn of the core left. -/
theorem coreTurn_next {s t : State} (h : coreTurn s = .next t) :
    (s.phase = .idle ∧ t = s) ∨ (s.phase = .load ∧ t = s.afterLoad) ∨
    (s.phase = .expand ∧ t = s.afterExpand) ∨ (s.phase = .round ∧ t = s.afterRound) ∨
    (s.phase = .accum ∧ t = s.afterAccum) ∨ (s.phase = .final ∧ t = s.afterFinal) := by
  rcases coreTurn_cases s with c | c | c | c | c | c <;> obtain ⟨hp, c⟩ := c <;> rw [c] at h <;>
    obtain rfl := Host.Outcome.next.inj h <;> simp [hp]

/-! ### The loops over t and over the blocks -/

theorem State.advance_last {s : State} (h : s.t = 63) (p : Phase) :
    (s.advance p).t = 0 ∧ (s.advance p).phase = p := by
  simp [State.advance, h]

theorem State.advance_next {s : State} (h : s.t.val < 63) (p : Phase) :
    (s.advance p).t.val = s.t.val + 1 ∧ (s.advance p).phase = s.phase := by
  have hne : s.t ≠ 63 := by intro hc; rw [hc] at h; exact absurd h (by decide)
  simp only [State.advance, hne, if_false, and_true]
  rw [Fin.val_add_one_of_lt']
  exact Nat.lt_of_lt_of_le (Nat.succ_lt_succ h) (by decide)

theorem State.afterExpand_last {s : State} (h : s.t = 63) :
    s.afterExpand.t = 0 ∧ s.afterExpand.phase = .round :=
  State.advance_last (s := { s with w := s.w.set s.t (expandWord s.w s.t) }) h .round

theorem State.afterExpand_next {s : State} (h : s.t.val < 63) :
    s.afterExpand.t.val = s.t.val + 1 ∧ s.afterExpand.phase = s.phase :=
  State.advance_next (s := { s with w := s.w.set s.t (expandWord s.w s.t) }) h .round

theorem State.afterRound_last {s : State} (h : s.t = 63) :
    s.afterRound.t = 0 ∧ s.afterRound.phase = .accum :=
  State.advance_last (s := { s with v := roundStep s.t.val s.v (s.w.get s.t) }) h .accum

theorem State.afterRound_next {s : State} (h : s.t.val < 63) :
    s.afterRound.t.val = s.t.val + 1 ∧ s.afterRound.phase = s.phase :=
  State.advance_next (s := { s with v := roundStep s.t.val s.v (s.w.get s.t) }) h .accum

/-- The index is at its last value or below it. -/
theorem index_cases (t : Fin 64) : t = 63 ∨ t.val < 63 := by
  rcases Nat.lt_or_ge t.val 63 with h | h
  · exact .inr h
  · exact .inl (Fin.ext (by have := t.isLt; change t.val = 63; omega))

theorem State.afterAccum_hs (s : State) : s.afterAccum.hs = addWords s.hs s.v := by
  unfold State.afterAccum; split <;> rfl

theorem State.afterAccum_more {s : State} (h : s.j + 1 < blockCount s.len.toNat) :
    s.afterAccum.j = s.j + 1 ∧ s.afterAccum.phase = .load := by
  simp [State.afterAccum, h]

theorem State.afterAccum_end {s : State} (h : blockCount s.len.toNat ≤ s.j + 1) :
    s.afterAccum.j = s.j ∧ s.afterAccum.phase = .final := by
  simp [State.afterAccum, Nat.not_lt.2 h]

theorem State.loadedSchedule_low (s : State) (i : Fin 64) (h : i.val < 16) :
    s.loadedSchedule.get i = blockWord s.msgByte s.len.toNat s.j i.val := by
  simp [State.loadedSchedule, Vector.get_eq_getElem, h]

theorem State.loadedSchedule_high (s : State) (i : Fin 64) (h : 16 ≤ i.val) :
    s.loadedSchedule.get i = s.w.get i := by
  simp [State.loadedSchedule, Vector.get_eq_getElem, Nat.not_lt.2 h]

/-! ### Frames -/

/-- No instruction writes the parameter, the draw or the turns to come. -/
theorem exec_keeps_parameters {i : Instr} {s t : State} (h : exec i s = .next t) :
    t.msgCap = s.msgCap ∧ t.draw = s.draw ∧ t.turns = s.turns := by
  cases hp : selectingPhase i with
  | none =>
    obtain ⟨t', ht, hc⟩ := hostOp_cases hp s
    obtain rfl : t' = t := by rw [ht] at h; simpa using h
    rcases hc with ⟨d, rfl⟩ | rfl | ⟨d, -, rfl⟩ | ⟨d, -, rfl⟩ | ⟨d, -, rfl⟩ | ⟨n, d, -, rfl⟩ <;> simp
  | some p =>
    obtain ⟨hs, hc⟩ := execStep_next hp h
    rcases coreTurn_cases s with c | c | c | c | c | c <;> obtain ⟨-, c⟩ := c <;>
      rw [c] at hc <;> simp only [Host.Outcome.next.injEq] at hc <;> subst hc <;> simp

/-- One turn answers a next state in every state. -/
theorem takeTurn_next (u : Turn) (s : State) : ∃ t, takeTurn u s = .next t := by
  cases u with
  | access a =>
    obtain ⟨t, ht, -⟩ := hostOp_cases (selectingPhase_decodeAccess a) s
    exact ⟨t, ht⟩
  | core => rcases coreTurn_cases s with c | c | c | c | c | c <;> exact ⟨_, c.2⟩
  | reset => exact ⟨_, rfl⟩

@[simp] theorem takeTurn_core (s : State) : takeTurn .core s = coreTurn s := rfl

@[simp] theorem takeTurn_reset (s : State) : takeTurn .reset s = .next s.resetInput := rfl

@[simp] theorem takeTurn_access (a : Access) (s : State) :
    takeTurn (.access a) s = exec (decodeAccess a) s := rfl

@[simp] theorem takeTurns_nil (s : State) : takeTurns [] s = .next s := rfl

theorem takeTurns_cons {u : Turn} {us : List Turn} {s t : State} (h : takeTurn u s = .next t) :
    takeTurns (u :: us) s = takeTurns us t := by
  simp only [takeTurns, h]

theorem takeTurns_append {us vs : List Turn} {s t : State} (h : takeTurns us s = .next t) :
    takeTurns (us ++ vs) s = takeTurns vs t := by
  induction us generalizing s with
  | nil => simp only [takeTurns_nil, Host.Outcome.next.injEq] at h; simp [h]
  | cons u us ih =>
    obtain ⟨s', hs'⟩ := takeTurn_next u s
    rw [takeTurns_cons hs'] at h
    rw [List.cons_append, takeTurns_cons hs']
    exact ih h

theorem takeTurns_next (us : List Turn) (s : State) : ∃ t, takeTurns us s = .next t := by
  induction us generalizing s with
  | nil => exact ⟨s, rfl⟩
  | cons u us ih =>
    obtain ⟨s', hs'⟩ := takeTurn_next u s
    rw [takeTurns_cons hs']
    exact ih s'

/-- A step is one turn: of the first of `turns`, or of the core. -/
theorem step_cases (s : State) :
    (s.turns = [] ∧ step s = coreTurn s) ∨
    ∃ u us, s.turns = u :: us ∧ step s = takeTurn u (s.withTurns us) := by
  unfold step nextTransition
  cases h : s.turns with
  | nil => exact .inl ⟨rfl, rfl⟩
  | cons u us => exact .inr ⟨u, us, rfl, rfl⟩

/-- A turn leaves the turns to come alone. -/
theorem takeTurn_keeps_turns {u : Turn} {s t : State} (h : takeTurn u s = .next t) :
    t.turns = s.turns := by
  cases u with
  | reset => obtain rfl := Host.Outcome.next.inj h; rfl
  | core =>
    rcases coreTurn_next h with c | c | c | c | c | c <;> obtain ⟨-, rfl⟩ := c <;> simp
  | access a => exact (exec_keeps_parameters h).2.2

/-- The turns to come do not reach what an instruction does. -/
theorem exec_withTurns (i : Instr) (s : State) (us : List Turn) :
    exec i (s.withTurns us) = match exec i s with
      | .next t => .next (t.withTurns us)
      | .fault f => .fault f
      | .refused r => .refused r := by
  cases i
  case wrCtrlStart d =>
    simp only [exec, execWrCtrlStart]
    congr 1
    rcases s.startRun_cases with ⟨h1, h2⟩ | ⟨h1, h3, h2⟩ | ⟨h1, h3, h2⟩ <;> rw [h2]
    · rw [State.startRun_busy (by simpa using h1)]; rfl
    · rw [State.startRun_rejected (by simpa using h1) (by simpa using h3)]; rfl
    · rw [State.startRun_accepted (by simpa using h1) (by simpa using h3)]; rfl
  case wrLen d =>
    simp only [exec, execWrLen]
    congr 1
    rcases s.writeLen_cases d with ⟨h1, h2⟩ | ⟨h1, h2⟩ <;> rw [h2]
    · rw [State.writeLen_busy (by simpa using h1)]; rfl
    · rw [State.writeLen_idle (by simpa using h1)]; rfl
  case wrMsg n d =>
    simp only [exec, execWrMsg]
    congr 1
    rcases s.writeWindow_cases n d with ⟨h1, h2⟩ | ⟨h1, h3, h2⟩ | ⟨h1, h3, h2⟩ <;> rw [h2]
    · rw [State.writeWindow_beyond (by simpa using h1)]; rfl
    · rw [State.writeWindow_busy (by simpa using h1) (by simpa using h3)]; rfl
    · rw [State.writeWindow_idle (by simpa using h1) (by simpa using h3)]; rfl
  case stepLoad =>
    simp only [exec, execStepLoad, State.withTurns_phase]
    by_cases h : s.phase = .load <;> simp [h] <;> rfl
  case stepExpand =>
    simp only [exec, execStepExpand, State.withTurns_phase]
    by_cases h : s.phase = .expand <;> simp [h]
    unfold State.afterExpand State.advance; by_cases h2 : s.t = 63 <;> simp [h2] <;> rfl
  case stepRound =>
    simp only [exec, execStepRound, State.withTurns_phase]
    by_cases h : s.phase = .round <;> simp [h]
    unfold State.afterRound State.advance; by_cases h2 : s.t = 63 <;> simp [h2] <;> rfl
  case stepAccum =>
    simp only [exec, execStepAccum, State.withTurns_phase]
    by_cases h : s.phase = .accum <;> simp [h]
    unfold State.afterAccum
    by_cases h2 : s.j + 1 < blockCount s.len.toNat <;> simp [h2] <;> rfl
  case stepFinal =>
    simp only [exec, execStepFinal, State.withTurns_phase]
    by_cases h : s.phase = .final <;> simp [h] <;> rfl
  all_goals rfl

/-- The turns to come do not reach what a turn does. -/
theorem takeTurn_withTurns {u : Turn} {s t : State} (h : takeTurn u s = .next t)
    (us : List Turn) : takeTurn u (s.withTurns us) = .next (t.withTurns us) := by
  cases u with
  | access a => simp only [takeTurn] at h ⊢; rw [exec_withTurns, h]
  | reset => obtain rfl := Host.Outcome.next.inj h; rfl
  | core =>
    simp only [takeTurn, coreTurn, State.withTurns_phase] at h ⊢
    split at h
    · rw [exec_withTurns, h]
    · obtain rfl := Host.Outcome.next.inj h; rfl

/-- Every step that answers is one turn, taken from the state without the turn it consumed. -/
theorem step_is_turn {s t : State} (h : step s = .next t) :
    ∃ u us, takeTurn u (s.withTurns us) = .next t := by
  rcases step_cases s with ⟨h0, h'⟩ | ⟨u, us, -, h'⟩ <;> rw [h'] at h
  · refine ⟨.core, [], ?_⟩
    rw [takeTurn_core, ← h, ← h0]; rfl
  · exact ⟨u, us, h⟩

/-- The `start` access runs a START. -/
theorem takeTurn_startTurn (s : State) : takeTurn startTurn s = .next s.startRun.writeReturns := rfl

end Sys2Proof.Machine
end

