-- ==== Sys2Proof/Tests/Slice0.lean ====
section
/-! SUPPORT. Tests. Every expected value is taken from `spec/95_test_vectors.md` (its vector is named)
or from the rule named; the parameter is MSG_CAP = 64, as there. The last part gives, for every
statement with hypotheses, states and operands that meet them. -/

namespace Sys2Proof.Tests
open Sys2Proof Sys2Proof.Machine

/-- The state after reset of an instance with MSG_CAP = 64. -/
def idle64 : State := { State.reset with msgCap := ⟨15#29⟩ }

/-- `idle64` in a phase, with an index and a length. -/
def inPhase (p : Phase) (t : Fin 64) (len : Word) : State :=
  { idle64 with phase := p, t := t, len := len }

/-- `idle64` with "abc" in the buffer and LEN = 3. -/
def abcState : State :=
  { idle64 with len := 3#32, msg := [(0, 0x61#8), (1, 0x62#8), (2, 0x63#8), (3, 0x00#8)] }

/-- What `f` reads of the next state, none where there is none. -/
def after {α : Type} (o : Host.Outcome State Fault Refusal) (f : State → α) : Option α :=
  match o with
  | .next s => some (f s)
  | .fault _ => none
  | .refused _ => none

/-- The words of block 0 of pad("abc") (V-PAD-3). -/
def abcBlock (i : Nat) : Word := if i = 0 then 0x61626380#32 else if i = 15 then 0x18#32 else 0#32

/-! ### Decoding: words written out from the spec's encoding -/

theorem test_decode_rdCtrl : decode (.access (.read 0x00000000#32)) = .ok .rdCtrl := by decide
/-- V-HOST-2 "running, `W 00000000 00000003`": CLEAR wins over START. -/
theorem test_decode_wrCtrlClear :
    decode (.access (.write 0x00000000#32 0x00000003#32)) = .ok (.wrCtrlClear 0x3#32) := by decide
theorem test_decode_wrCtrlStart :
    decode (.access (.write 0x00000000#32 0x00000001#32)) = .ok (.wrCtrlStart 0x1#32) := by decide
/-- V-HOST-2: bits 31:2 of the data are ignored. -/
theorem test_decode_wrCtrlNop :
    decode (.access (.write 0x00000000#32 0xFFFFFFFC#32)) = .ok (.wrCtrlNop 0xFFFFFFFC#32) := by
  decide
theorem test_decode_rdStatus : decode (.access (.read 0x00000004#32)) = .ok .rdStatus := by decide
theorem test_decode_wrStatus :
    decode (.access (.write 0x00000004#32 0xFFFFFFFF#32)) = .ok (.wrStatus 0xFFFFFFFF#32) := by
  decide
theorem test_decode_rdLen : decode (.access (.read 0x00000008#32)) = .ok .rdLen := by decide
/-- P6: `wr 0x0000000B` writes LEN. -/
theorem test_decode_wrLen :
    decode (.access (.write 0x0000000B#32 0x00000040#32)) = .ok (.wrLen 0x40#32) := by decide
theorem test_decode_rdMsgcap : decode (.access (.read 0x0000000C#32)) = .ok .rdMsgcap := by decide
theorem test_decode_wrMsgcap :
    decode (.access (.write 0x0000000C#32 0#32)) = .ok (.wrMsgcap 0#32) := by decide
/-- V-HOST-1. -/
theorem test_decode_rdDigest : decode (.access (.read 0x00000023#32)) = .ok (.rdDigest 0) ∧
    decode (.access (.read 0x0000003F#32)) = .ok (.rdDigest 7) := by decide
theorem test_decode_wrDigest :
    decode (.access (.write 0x00000024#32 5#32)) = .ok (.wrDigest 1 5#32) := by decide
/-- V-HOST-1. -/
theorem test_decode_rdMsg : decode (.access (.read 0x80000003#32)) = .ok (.rdMsg 0#29) ∧
    decode (.access (.read 0xFFFFFFFC#32)) = .ok (.rdMsg 0x1FFFFFFF#29) := by decide
/-- P3: `msgw 13`. -/
theorem test_decode_wrMsg : decode (.access (.write 0x80000034#32 0x6E6F7071#32)) =
    .ok (.wrMsg 13#29 0x6E6F7071#32) := by decide
/-- V-HOST-1. -/
theorem test_decode_rdRsvd : decode (.access (.read 0x00000010#32)) = .ok (.rdRsvd 4#29) ∧
    decode (.access (.read 0x00000040#32)) = .ok (.rdRsvd 16#29) := by decide
/-- V-HOST-2. -/
theorem test_decode_wrRsvd :
    decode (.access (.write 0x00000044#32 0x12345678#32)) = .ok (.wrRsvd 17#29 0x12345678#32) := by
  decide
/-- R63. -/
theorem test_decode_steps : decode (.phase 0b001#3) = .ok .stepLoad ∧
    decode (.phase 0b010#3) = .ok .stepExpand ∧ decode (.phase 0b011#3) = .ok .stepRound ∧
    decode (.phase 0b100#3) = .ok .stepAccum ∧ decode (.phase 0b101#3) = .ok .stepFinal := by decide
/-- R63, R103: the codes that select no step are rejected by name. -/
theorem test_decode_rejects : decode (.phase 0b000#3) = .error .idlePhase ∧
    decode (.phase 0b110#3) = .error .unusedPhase ∧
    decode (.phase 0b111#3) = .error .unusedPhase := by decide
/-- Log 7: the byte form, and its rejections. -/
theorem test_decodeBytes :
    decodeBytes [0, 0, 0, 8, 0, 0, 0, 0x38, 1] = .ok (.wrLen 0x38#32) ∧
    decodeBytes [0x80, 0, 0, 4, 0, 0, 0, 0, 0] = .ok (.rdMsg 1#29) ∧
    decodeBytes [0, 0, 0, 8, 0, 0, 0, 0, 2] = .error .badDirection ∧
    decodeBytes [8] = .error .badPhaseByte ∧ decodeBytes [] = .error .badLength := by decide
/-- Log 7: table words of the three lengths. -/
theorem test_decodeTableWord : decodeTableWord 32 0x80000000 = some (.rdMsg 0#29) ∧
    decodeTableWord 3 0b101 = some .stepFinal ∧ decodeTableWord 3 0b111 = none ∧
    decodeTableWord 72 0x010000003800000008 = some (.wrLen 0x38#32) := by decide

/-! ### WellFormed: one ill-formed term for each check -/

theorem test_wellFormed_clear : (Instr.wrCtrlClear 0x1#32).wellFormed = false ∧
    (Instr.wrCtrlClear 0x2#32).wellFormed = true := by decide
theorem test_wellFormed_start_clear_bit : (Instr.wrCtrlStart 0x3#32).wellFormed = false := by decide
theorem test_wellFormed_start_start_bit : (Instr.wrCtrlStart 0x0#32).wellFormed = false ∧
    (Instr.wrCtrlStart 0x1#32).wellFormed = true := by decide
theorem test_wellFormed_nop_clear_bit : (Instr.wrCtrlNop 0x2#32).wellFormed = false := by decide
theorem test_wellFormed_nop_start_bit : (Instr.wrCtrlNop 0x1#32).wellFormed = false ∧
    (Instr.wrCtrlNop 0x4#32).wellFormed = true := by decide
theorem test_wellFormed_rdRsvd : (Instr.rdRsvd 3#29).wellFormed = false ∧
    (Instr.rdRsvd 8#29).wellFormed = false ∧ (Instr.rdRsvd 15#29).wellFormed = false ∧
    (Instr.rdRsvd 7#29).wellFormed = true := by decide
theorem test_wellFormed_wrRsvd : (Instr.wrRsvd 0#29 0#32).wellFormed = false ∧
    (Instr.wrRsvd 16#29 0#32).wellFormed = true := by decide

/-! ### The pure functions -/

/-- V-SCH-1. -/
theorem test_sigma : smallSigma0 0x12345678#32 = 0xE7FCE6EE#32 ∧
    smallSigma1 0x12345678#32 = 0xA1F78649#32 ∧ smallSigma0 0xFFFFFFFF#32 = 0x1FFFFFFF#32 ∧
    smallSigma1 0x80000000#32 = 0x00205000#32 ∧ rotr 0x12345678#32 7 = 0xF02468AC#32 := by decide
/-- V-CMP-1. -/
theorem test_Sigma : bigSigma0 0x12345678#32 = 0x66146474#32 ∧
    bigSigma1 0x12345678#32 = 0x3561ABDA#32 ∧ bigSigma0 1#32 = 0x40080400#32 ∧
    bigSigma1 1#32 = 0x04200080#32 := by decide
/-- V-CMP-2. -/
theorem test_ch_maj : ch 0xFF00FF00#32 0x12345678#32 0x9ABCDEF0#32 = 0x12BC56F0#32 ∧
    maj 0xF0F0F0F0#32 0xFF00FF00#32 0xAAAAAAAA#32 = 0xFAA0FAA0#32 := by decide
/-- V-PAD-1: padlen, T, N at L = 55, 56, 120. -/
theorem test_padLen : padLen 55 = 9 ∧ padLen 56 = 72 ∧ padLen 120 = 72 ∧ padTotal 120 = 192 ∧
    blockCount 55 = 1 ∧ blockCount 56 = 2 ∧ blockCount 120 = 3 := by decide
/-- V-PAD-5: bytes 52 to 63 of pad(55 a's). -/
theorem test_padMessage : (padMessage (List.replicate 55 0x61#8)).drop 52 =
    [0x61, 0x61, 0x61, 0x80, 0, 0, 0, 0, 0, 0, 1, 0xB8] := by decide
/-- V-PAD-8. -/
theorem test_lengthField : bytesBE64 (lengthField (2 ^ 61 - 1)) =
      [0xFF, 0xFF, 0xFF, 0xFF, 0xFF, 0xFF, 0xFF, 0xF8] ∧
    lengthField (2 ^ 61) = 0#64 ∧ lengthField (2 ^ 61 + 1) = 8#64 := by decide
/-- V-SCH-2: w[16], w[17], w[31], w[63] of pad("abc"). -/
theorem test_scheduleWord : scheduleWord abcBlock 16 = 0x61626380#32 ∧
    scheduleWord abcBlock 17 = 0x000F0000#32 ∧ scheduleWord abcBlock 31 = 0xD3B7973B#32 ∧
    scheduleWord abcBlock 63 = 0x12B1EDEB#32 := by decide +kernel
/-- V-CMP-8, V-CMP-9: round 0 from IV with w = 0, and the wrap-around at the top. -/
theorem test_roundStep :
    roundStep 0 iv 0#32 = #v[0xFC08884D#32, 0x6A09E667#32, 0xBB67AE85#32, 0x3C6EF372#32,
      0x98C7E2A2#32, 0x510E527F#32, 0x9B05688C#32, 0x1F83D9AB#32] ∧
    roundStep 0 (Vector.replicate 8 0xFFFFFFFF#32) 0xFFFFFFFF#32 =
      #v[0x428A2F92#32, 0xFFFFFFFF#32, 0xFFFFFFFF#32, 0xFFFFFFFF#32, 0x428A2F93#32,
        0xFFFFFFFF#32, 0xFFFFFFFF#32, 0xFFFFFFFF#32] := by decide +kernel
/-- V-CMP-7: compress from IV with the block of pad("abc"). -/
theorem test_compress : compress iv (scheduleWord abcBlock) =
    #v[0xBA7816BF#32, 0x8F01CFEA#32, 0x414140DE#32, 0x5DAE2223#32, 0xB00361A3#32, 0x96177A9C#32,
      0xB410FF61#32, 0xF20015AD#32] := by decide +kernel
/-- V-SRC-1: digest of the empty message. -/
theorem test_digestOf_empty : digestOf [] =
    [0xE3, 0xB0, 0xC4, 0x42, 0x98, 0xFC, 0x1C, 0x14, 0x9A, 0xFB, 0xF4, 0xC8, 0x99, 0x6F, 0xB9,
      0x24, 0x27, 0xAE, 0x41, 0xE4, 0x64, 0x9B, 0x93, 0x4C, 0xA4, 0x95, 0x99, 0x1B, 0x78, 0x52,
      0xB8, 0x55] := by decide +kernel

/-! ### Host operations, one step each (V-HOST-1, V-HOST-2) -/

/-- "R 00000000 returns 0 in every state". -/
theorem test_rdCtrl : after (exec .rdCtrl (inPhase .load 0 3#32)) (·.rdata) = some (some 0#32) := by
  decide
/-- "running, W 00000000 00000003: CLEAR wins: run aborted, STATUS 0". -/
theorem test_wrCtrlClear : after (exec (.wrCtrlClear 3#32)
    { inPhase .round 5 3#32 with errBusy := true, errLen := true, j := 1 })
    (fun s => (s.phase, s.t.val, s.j, s.statusWord, s.len)) = some (.idle, 0, 0, 0#32, 3#32) := by
  decide
/-- "idle, LEN = 64: run begins; STATUS 1"; the begin-run of R97. -/
theorem test_wrCtrlStart : after (exec (.wrCtrlStart 1#32)
    { inPhase .idle 0 64#32 with done := true })
    (fun s => (s.phase, s.hs.get 0, s.statusWord)) = some (.load, 0x6a09e667#32, 1#32) := by decide
/-- "idle, LEN = 65: rejected; STATUS 8" and "running: STATUS 5". -/
theorem test_wrCtrlStart_rejected : after (exec (.wrCtrlStart 1#32)
      { inPhase .idle 0 65#32 with done := true }) (fun s => (s.phase, s.statusWord)) =
      some (.idle, 8#32) ∧
    after (exec (.wrCtrlStart 1#32) (inPhase .round 5 65#32))
      (fun s => (s.phase, s.t.val, s.statusWord)) = some (.round, 5, 5#32) := by decide
theorem test_wrCtrlNop : after (exec (.wrCtrlNop 0xFFFFFFFC#32) (inPhase .round 5 3#32))
    (fun s => (s.phase, s.t.val, s.statusWord)) = some (.round, 5, 1#32) := by decide
/-- R112: "during a run with ERR_BUSY set it returns 0x00000005". -/
theorem test_rdStatus : after (exec .rdStatus { inPhase .load 0 3#32 with errBusy := true })
    (·.rdata) = some (some 5#32) := by decide
theorem test_wrStatus : after (exec (.wrStatus 0xFFFFFFFF#32) { idle64 with errLen := true })
    (·.statusWord) = some 8#32 := by decide
theorem test_rdLen : after (exec .rdLen (inPhase .idle 0 0x38#32)) (·.rdata) =
    some (some 0x38#32) := by decide
/-- Stored while idle, any value; "running: ignored; LEN unchanged; STATUS 5". -/
theorem test_wrLen : after (exec (.wrLen 0xFFFFFFFF#32) idle64) (·.len) = some 0xFFFFFFFF#32 ∧
    after (exec (.wrLen 0#32) (inPhase .expand 16 3#32)) (fun s => (s.len, s.statusWord)) =
      some (3#32, 5#32) := by decide
/-- "with MSG_CAP = 64, R 0000000C returns 0x00000040". -/
theorem test_rdMsgcap : after (exec .rdMsgcap idle64) (·.rdata) = some (some 0x40#32) := by decide
theorem test_wrMsgcap : after (exec (.wrMsgcap 0#32) idle64) (·.msgCap.bytes) = some 64 := by decide
theorem test_rdDigest : after (exec (.rdDigest 7)
    { idle64 with digest := idle64.digest.set 7 0xF20015AD#32 }) (·.rdata) =
    some (some 0xF20015AD#32) := by decide
theorem test_wrDigest : after (exec (.wrDigest 0 0x12345678#32) idle64) (·.digest.get 0) =
    some 0#32 := by decide
/-- "R 80000003: 61626300"; "R 80000040: beyond capacity, 0". -/
theorem test_rdMsg : after (exec (.rdMsg 0#29) abcState) (·.rdata) = some (some 0x61626300#32) ∧
    after (exec (.rdMsg 16#29) abcState) (·.rdata) = some (some 0#32) := by decide
/-- "W 80000000 61626300: MSG[0..3] = 61 62 63 00", at the last word of the buffer; "W 80000040:
none, no error" and "running, W 80000000: ignored, STATUS 5". -/
theorem test_wrMsg : after (exec (.wrMsg 15#29 0x61626300#32) idle64) (·.msg) =
      some [(60, 0x61#8), (61, 0x62#8), (62, 0x63#8), (63, 0x00#8)] ∧
    after (exec (.wrMsg 16#29 0x12345678#32) idle64) (fun s => (s.msg, s.statusWord)) =
      some ([], 0#32) := by decide
theorem test_wrMsg_busy : after (exec (.wrMsg 0#29 0#32) { abcState with phase := .round })
      (fun s => (s.msg.length, s.msgByte 0, s.statusWord)) = some (4, 0x61#8, 5#32) ∧
    after (exec (.wrMsg 16#29 0#32) { abcState with phase := .round }) (·.statusWord) =
      some 1#32 := by decide
theorem test_rdRsvd : after (exec (.rdRsvd 4#29) abcState) (·.rdata) = some (some 0#32) := by decide
theorem test_wrRsvd : after (exec (.wrRsvd 17#29 0x12345678#32) (inPhase .round 5 3#32))
    (fun s => (s.msg, s.len, s.statusWord)) = some ([], 3#32, 1#32) := by decide

/-! ### Sequencer steps, one step each (V-SEQ-1, V-SEQ-2) -/

/-- V-SEQ-1 step 1; V-SEQ-4 is the case LEN = 0. -/
theorem test_stepLoad : after (exec .stepLoad { abcState with phase := .load, hs := iv })
      (fun s => (s.phase, s.t.val, s.w.get 0, s.w.get 15, s.v.get 7)) =
      some (.expand, 16, 0x61626380#32, 0x18#32, 0x5be0cd19#32) ∧
    after (exec .stepLoad (inPhase .load 0 0#32)) (fun s => (s.w.get 0, s.w.get 15)) =
      some (0x80000000#32, 0#32) := by decide +kernel
/-- V-SEQ-1 step 2, and the corner t = 63 of R99. -/
theorem test_stepExpand : after (exec .stepExpand { inPhase .expand 16 3#32 with
      w := idle64.w.set 0 0x61626380#32 }) (fun s => (s.phase, s.t.val, s.w.get 16, s.w.get 0)) =
      some (.expand, 17, 0x61626380#32, 0x61626380#32) ∧
    after (exec .stepExpand (inPhase .expand 63 3#32)) (fun s => (s.phase, s.t.val)) =
      some (.round, 0) := by decide +kernel
/-- V-CMP-8: round 63 from V = 0 with w = 0, and its move to ACCUM. -/
theorem test_stepRound : after (exec .stepRound (inPhase .round 63 3#32))
    (fun s => (s.phase, s.t.val, s.v)) = some (.accum, 0, #v[0xC67178F2#32, 0#32, 0#32, 0#32,
      0xC67178F2#32, 0#32, 0#32, 0#32]) := by decide +kernel
/-- V-SEQ-2 steps 114 and 228: the block loop; V-CMP-4, V-CMP-7: 6A09E667 + 506E3058. -/
theorem test_stepAccum : after (exec .stepAccum { inPhase .accum 0 56#32 with
      hs := iv, v := idle64.v.set 0 0x506E3058#32 }) (fun s => (s.phase, s.j, s.hs.get 0)) =
      some (.load, 1, 0xBA7816BF#32) ∧
    after (exec .stepAccum { inPhase .accum 0 56#32 with j := 1 }) (fun s => (s.phase, s.j)) =
      some (.final, 1) := by decide +kernel
/-- V-SEQ-1 step 115. -/
theorem test_stepFinal : after (exec .stepFinal { inPhase .final 0 3#32 with hs := iv })
    (fun s => (s.phase, s.digest, s.statusWord)) = some (.idle, iv, 2#32) := by decide +kernel
/-- Log 8: a step in a phase that does not select it. -/
theorem test_stepNotEnabled : exec .stepFinal idle64 = .fault .stepNotEnabled := rfl
/-- R103: IDLE is quiescent; log 4: the turns run in order. -/
theorem test_step_turns : after (step idle64) id = some idle64 ∧
    after (step (idle64.withTurns [.access (.write 0x08#32 3#32), .core]))
      (fun s => (s.len, s.turns)) = some (3#32, [.core]) := by decide +kernel

/-! ### Witnesses: states and operands that meet the hypotheses of each statement

`witness_<Statement>` meets all hypotheses of the statement together; where its clauses have their own
conditions, each clause at a boundary value. A statement without hypotheses has none. -/

theorem witness_DecodingAnEncodedInstructionGivesItBack :
    (Instr.wrCtrlStart 0xFFFFFFFD#32).wellFormed = true ∧
    (Instr.rdRsvd 0x1FFFFFFF#29).wellFormed = true ∧ Instr.stepFinal.wellFormed = true := by decide

theorem witness_EncodingADecodedCodeClearsOnlyIgnoredBits :
    decode (.phase 0b101#3) = .ok .stepFinal ∧
    decode (.access (.write 0x03#32 0x2#32)) = .ok (.wrCtrlClear 0x2#32) := by decide

/-- The first and the last word of each clause's range, and the three kinds of CTRL data. -/
theorem witness_OffsetsDecodeByTheAddressMap :
    ((0x00000003#32).toNat / 4 = 0 ∧ (0x3#32).toNat / 2 % 2 = 1 ∧
      (0xFFFFFFFD#32).toNat % 4 = 1 ∧ (0xFFFFFFFC#32).toNat % 4 = 0) ∧
    (0x00000007#32).toNat / 4 = 1 ∧ (0x00000008#32).toNat / 4 = 2 ∧
    (0x0000000F#32).toNat / 4 = 3 ∧ (4 ≤ (0x00000010#32).toNat / 4) ∧
    ((0x0000001F#32).toNat / 4 ≤ 7) ∧ (0x00000020#32).toNat / 4 = 8 + (0 : Fin 8).val ∧
    (0x0000003F#32).toNat / 4 = 8 + (7 : Fin 8).val ∧ (16 ≤ (0x00000040#32).toNat / 4) ∧
    ((0x7FFFFFFF#32).toNat / 4 < 2 ^ 29) ∧ (2 ^ 29 ≤ (0x80000000#32).toNat / 4) := by decide

theorem witness_OffsetBitsOneAndZeroAreIgnored :
    decodeAccess (.read 0x00000020#32) = decodeAccess (.read 0x00000023#32) := by decide

theorem witness_StepRunsTheSelectedInstruction :
    (idle64.withTurns [.access (.read 0x04#32), .core]).turns =
      .access (.read 0x04#32) :: [.core] ∧
    ((inPhase .round 63 3#32).withTurns [.core]).turns = .core :: [] ∧
    decode (.phase (codeOfPhase (inPhase .round 63 3#32).phase)) = .ok .stepRound ∧
    (inPhase .round 63 3#32).turns = [] ∧ (idle64.withTurns [.core]).turns = .core :: [] ∧
    idle64.phase = .idle ∧ idle64.turns = [] ∧
    (idle64.withTurns [.reset]).turns = .reset :: [] := by decide

theorem witness_PlacedTableWordIsTheNextStep : decodeTableWord 32 0x00000023 = some (.rdDigest 0) ∧
    decodeTableWord 3 0b011 = some .stepRound := by decide

theorem witness_SequencerStepIsEnabledInItsPhaseOnly :
    selectingPhase .stepAccum = some .accum ∧ (inPhase .accum 0 3#32).phase = .accum ∧
    (inPhase .final 0 3#32).phase ≠ .accum := by decide

theorem witness_EveryInterleavingIsARunOfStep : State.reset.turns = [] := rfl

theorem witness_AfterResetStatusReadsZero :
    takeTurn .reset abcState = .next abcState.resetInput ∧ State.reset = State.reset := ⟨rfl, rfl⟩

theorem witness_RegisterReadsReturnTheirValue :
    alignOff 0x00000003#32 = 0x00000000#32 ∧ alignOff 0x0000000B#32 = 0x00000008#32 ∧
    alignOff 0x0000000C#32 = 0x0000000C#32 ∧
    (0x10 ≤ (alignOff 0x00000010#32).toNat ∧ (alignOff 0x0000001F#32).toNat ≤ 0x1C) ∧
    (0x40 ≤ (alignOff 0x00000040#32).toNat ∧ (alignOff 0x7FFFFFFF#32).toNat ≤ 0x7FFFFFFC) := by
  decide

theorem witness_DigestReadReturnsItsWord :
    (alignOff 0x00000020#32).toNat = 0x20 + 4 * (0 : Fin 8).val ∧
    (alignOff 0x0000003F#32).toNat = 0x20 + 4 * (7 : Fin 8).val ∧ 3 < 4 := by decide

theorem witness_StatusReadShowsItsFields : alignOff 0x00000007#32 = 0x00000004#32 ∧ 4 ≤ 31 := by
  decide

theorem witness_IgnoredWritesChangeNothing :
    (alignOff 0x00000000#32 = 0x00000000#32 ∧ (0xFFFFFFFC#32).getLsbD 1 = false ∧
      (0xFFFFFFFC#32).getLsbD 0 = false) ∧
    alignOff 0x00000004#32 = 0x00000004#32 ∧ alignOff 0x0000000F#32 = 0x0000000C#32 ∧
    (alignOff 0x0000003C#32).toNat = 0x20 + 4 * (7 : Fin 8).val ∧
    (0x10 ≤ (alignOff 0x0000001C#32).toNat ∧ (alignOff 0x0000001C#32).toNat ≤ 0x1C) ∧
    (0x40 ≤ (alignOff 0x00000043#32).toNat ∧ (alignOff 0x00000043#32).toNat ≤ 0x7FFFFFFC) := by
  decide

theorem witness_ClearAbortsAndClearsStatus :
    alignOff 0x00000002#32 = 0x00000000#32 ∧ (0x3#32).getLsbD 1 = true := by decide

/-- With LEN = MSG_CAP + 1 and LEN = MSG_CAP. -/
theorem witness_StartBeginsARunOrSetsItsErrorBit :
    (alignOff 0x00000000#32 = 0x00000000#32 ∧ (0x1#32).getLsbD 1 = false ∧
      (0x1#32).getLsbD 0 = true) ∧
    (inPhase .load 0 65#32).phase ≠ .idle ∧
    ((inPhase .idle 0 65#32).phase = .idle ∧
      (inPhase .idle 0 65#32).msgCap.bytes < (inPhase .idle 0 65#32).len.toNat) ∧
    ((inPhase .idle 0 64#32).phase = .idle ∧
      (inPhase .idle 0 64#32).len.toNat ≤ (inPhase .idle 0 64#32).msgCap.bytes) := by decide

theorem witness_LenWriteIsStoredOnlyWhileIdle : alignOff 0x00000008#32 = 0x00000008#32 ∧
    idle64.phase = .idle ∧ (inPhase .final 0 3#32).phase ≠ .idle := by decide

/-- The last word of the buffer and the first beyond it. -/
theorem witness_MsgReadReturnsTheWindowWord :
    (0x8000003C#32).getLsbD 31 = true ∧ 4 * (15#29).toNat + 4 ≤ idle64.msgCap.bytes ∧
    (0x80000040#32).getLsbD 31 = true ∧ idle64.msgCap.bytes < 4 * (16#29).toNat + 4 := by decide

theorem witness_MsgWriteIsStoredWhileIdleWithinCapacity :
    (0x8000003C#32).getLsbD 31 = true ∧ 4 * (15#29).toNat + 4 ≤ idle64.msgCap.bytes ∧
    idle64.phase = .idle ∧ (inPhase .load 0 3#32).phase ≠ .idle ∧
    4 * (15#29).toNat + 4 ≤ (inPhase .load 0 3#32).msgCap.bytes ∧
    idle64.msgCap.bytes < 4 * (16#29).toNat + 4 := by decide

theorem witness_WrittenWindowWordReadsBack : idle64.phase = .idle ∧
    4 * (15#29).toNat + 4 ≤ idle64.msgCap.bytes ∧
    exec (.wrMsg 15#29 7#32) idle64 = .next (idle64.writeMsgWord 15#29 7#32).writeReturns ∧
    14#29 ≠ 15#29 := ⟨by decide, by decide, rfl, by decide⟩

theorem witness_RunIsUndisturbedByHostAccesses :
    (inPhase .round 5 3#32).phase ≠ .idle ∧
    (∀ d, decodeAccess (.write 0x08#32 9#32) ≠ .wrCtrlClear d) ∧
    takeTurn (.access (.write 0x08#32 9#32)) (inPhase .round 5 3#32) =
      .next (inPhase .round 5 3#32).raiseErrBusy.writeReturns :=
  ⟨by decide, fun d h => absurd (h.symm.trans (rfl : _ = Instr.wrLen 9#32)) (by simp), rfl⟩

/-- A START that sets ERR_LEN, and one that sets ERR_BUSY. -/
theorem witness_OneAccessSetsAtMostOneErrorBit :
    (takeTurn startTurn (inPhase .idle 0 65#32) =
      .next (inPhase .idle 0 65#32).clearDone.raiseErrLen.writeReturns ∧
      (inPhase .idle 0 65#32).errLen = false) ∧
    (takeTurn startTurn (inPhase .final 0 3#32) =
      .next (inPhase .final 0 3#32).raiseErrBusy.writeReturns ∧
      (inPhase .final 0 3#32).errBusy = false) := ⟨⟨rfl, rfl⟩, ⟨rfl, rfl⟩⟩

theorem witness_ErrorBitsStayUntilClearOrReset :
    takeTurn .core { inPhase .final 0 3#32 with errBusy := true, errLen := true } =
      .next (State.afterFinal { inPhase .final 0 3#32 with errBusy := true, errLen := true }) ∧
    (Turn.core ≠ .reset) ∧
    (∀ a d, Turn.core = .access a → decodeAccess a ≠ .wrCtrlClear d) :=
  ⟨rfl, by decide, fun _ _ h => by simp at h⟩

/-- STEP_FINAL, and a START that clears DONE. -/
theorem witness_OnlyTheFinalStepWritesDigestAndSetsDone :
    (exec .stepFinal { inPhase .final 0 3#32 with hs := iv } =
      .next (State.afterFinal { inPhase .final 0 3#32 with hs := iv }) ∧
      (State.afterFinal { inPhase .final 0 3#32 with hs := iv }).digest ≠
        (inPhase .final 0 3#32).digest ∧ (inPhase .final 0 3#32).done = false) ∧
    (exec (.wrCtrlStart 1#32) { idle64 with done := true } =
      .next (State.beginRun (State.clearDone { idle64 with done := true })).writeReturns ∧
      (State.beginRun (State.clearDone { idle64 with done := true })).done = false) := by
  refine ⟨⟨rfl, fun h => ?_, rfl⟩, rfl, rfl⟩
  exact absurd (congrArg (fun v => v.get 0) h) (by decide)

theorem witness_HostOperationsLeaveTheDatapath : selectingPhase (.wrCtrlStart 1#32) = none ∧
    exec (.wrCtrlStart 1#32) abcState = .next abcState.clearDone.beginRun.writeReturns ∧
    abcState.clearDone.beginRun.hs ≠ abcState.hs := by
  refine ⟨rfl, rfl, fun h => ?_⟩
  exact absurd (congrArg (fun v => v.get 0) h) (by decide)

theorem witness_OnlyWindowWritesChangeTheBuffer :
    (∀ n d, Instr.stepLoad ≠ .wrMsg n d) ∧
    exec .stepLoad { abcState with phase := .load } =
      .next (State.afterLoad { abcState with phase := .load }) ∧
    exec (.wrMsg 1#29 7#32) abcState = .next (abcState.writeMsgWord 1#29 7#32).writeReturns ∧
    (3 < 4 * (1#29).toNat ∨ 4 * (1#29).toNat + 4 ≤ 3) :=
  ⟨fun _ _ h => by simp at h, rfl, rfl, by decide⟩

theorem witness_CapacityIsTheSameAtEveryTime : step idle64 = .next idle64 := rfl

theorem witness_LoadStepLoadsTheBlock : (inPhase .load 0 3#32).phase = .load ∧
    (15 : Fin 64).val < 16 ∧ 16 ≤ (16 : Fin 64).val := by decide

/-- At t = 16 and at t = 63. -/
theorem witness_ExpandStepComputesOneScheduleWord :
    ((inPhase .expand 16 3#32).phase = .expand ∧ 16 ≤ (inPhase .expand 16 3#32).t.val ∧
      (14 : Fin 64).val + 2 = 16 ∧ (9 : Fin 64).val + 7 = 16 ∧ (1 : Fin 64).val + 15 = 16 ∧
      (0 : Fin 64).val + 16 = 16 ∧ (63 : Fin 64) ≠ 16 ∧ (inPhase .expand 16 3#32).t.val < 63) ∧
    (inPhase .expand 63 3#32).t.val = 63 := by decide

theorem witness_RoundStepRunsOneRound : (inPhase .round 62 3#32).phase = .round ∧
    (inPhase .round 62 3#32).t.val < 63 ∧ (inPhase .round 63 3#32).t.val = 63 := by decide

/-- LEN = 56 with a block to go, and LEN = 55 at its last block. -/
theorem witness_AccumStepAddsAndLoops : ((inPhase .accum 0 56#32).phase = .accum ∧
      (inPhase .accum 0 56#32).j + 1 < blockCount (inPhase .accum 0 56#32).len.toNat) ∧
    ((inPhase .accum 0 55#32).phase = .accum ∧
      blockCount (inPhase .accum 0 55#32).len.toNat ≤ (inPhase .accum 0 55#32).j + 1) := by decide

theorem witness_FinalStepWritesTheDigest : (inPhase .final 0 3#32).phase = .final := rfl

theorem witness_RotationsShiftsAndSigmasBitByBit :
    (1 ≤ 1 ∧ 1 ≤ 31) ∧ (1 ≤ 31 ∧ 31 ≤ 31) ∧ 0 ≤ 31 ∧ 0 < 32 ∧ 31 < 32 := by decide

theorem witness_ChooseAndMajorityBitByBit : 0 < 32 ∧ 31 < 32 := by decide

theorem witness_ConstantsAreRootsOfThePrimes : 0 < 64 ∧ 63 < 64 := by decide

theorem witness_BlocksAndTheirWords : 0 < blockCount [0x61#8].length ∧ 0 < 16 ∧ 15 < 16 := by
  decide

theorem witness_ScheduleFollowsItsRecurrence : 0 < 16 ∧ 15 < 16 := by decide

theorem witness_DigestBytesInStateOrder : 0 < 4 ∧ 3 < 4 := by decide

/-- Two byte functions that differ at 1 = L. -/
theorem witness_DigestDependsOnTheMessageAlone : (∀ i, i < 1 → (fun _ => 0#8 : Nat → Byte) i =
      (fun n => if n < 1 then 0#8 else 1#8 : Nat → Byte) i) ∧
    (fun _ => 0#8 : Nat → Byte) 1 ≠ (fun n => if n < 1 then 0#8 else 1#8 : Nat → Byte) 1 := by
  refine ⟨fun i hi => ?_, by decide⟩
  simp [hi]

/-- `abcState` at the beginning of its run. -/
theorem witness_StepKeepsTheBufferCanonical : (State.beginRun abcState).MsgCanonical ∧
    step (State.beginRun abcState) = .next (State.beginRun abcState).afterLoad :=
  ⟨⟨by decide, by decide⟩, rfl⟩

theorem witness_StepKeepsTheRunShape : (State.beginRun abcState).RunShape ∧
    step (State.beginRun abcState) = .next (State.beginRun abcState).afterLoad :=
  ⟨⟨by decide, by decide, by decide, by decide, by decide⟩, rfl⟩

theorem witness_StepKeepsTheRunProgress : (State.beginRun abcState).RunShape ∧
    (State.beginRun abcState).RunProgress ∧
    step (State.beginRun abcState) = .next (State.beginRun abcState).afterLoad := by
  refine ⟨witness_StepKeepsTheRunShape.1, ?_, rfl⟩
  unfold State.RunProgress; rfl

/-- The run of the empty message, disturbed by a rejected LEN write: 114 core steps, all of them
busy. -/
def emptyRun : List Turn := .access (.write 0x08#32 9#32) :: List.replicate 114 .core

theorem emptyRun_busy : ∀ n : Fin 116,
    after (takeTurns (startTurn :: emptyRun.take n.val) idle64) (·.phase != .idle) = some true := by
  decide +kernel

theorem emptyRun_ends :
    after (takeTurns (startTurn :: emptyRun ++ [.core]) idle64) (·.phase) = some .idle := by
  decide +kernel

/-- What `after` read, of a next state. -/
theorem after_next {α : Type} {o : Host.Outcome State Fault Refusal} {f : State → α} {x : α}
    {s : State} (h : after o f = some x) (ho : o = .next s) : f s = x := by
  subst ho; simpa [after] using h

theorem emptyRun_goesOn : RunGoesOn idle64 emptyRun := by
  intro n s' hn hs
  have hn' : n < 116 := Nat.lt_of_le_of_lt hn (by decide)
  have := after_next (emptyRun_busy ⟨n, hn'⟩) hs
  simpa using this

/-- Also the hypotheses of `RunTakesItsStepCount`. -/
theorem witness_CompletedRunLeavesTheDigest :
    idle64.phase = .idle ∧ idle64.len.toNat ≤ idle64.msgCap.bytes ∧ RunGoesOn idle64 emptyRun ∧
    ∃ s1 s2, takeTurns (startTurn :: emptyRun) idle64 = .next s1 ∧
      takeTurn .core s1 = .next s2 ∧ s2.phase = .idle := by
  refine ⟨rfl, by decide, emptyRun_goesOn, ?_⟩
  obtain ⟨s1, h1⟩ := takeTurns_next (startTurn :: emptyRun) idle64
  obtain ⟨s2, h2⟩ := takeTurn_next .core s1
  have h : takeTurns (startTurn :: emptyRun ++ [.core]) idle64 = .next s2 := by
    rw [takeTurns_append h1, takeTurns_cons h2]; rfl
  exact ⟨s1, s2, h1, h2, after_next emptyRun_ends h⟩

theorem witness_RunTakesItsStepCount :
    idle64.phase = .idle ∧ idle64.len.toNat ≤ idle64.msgCap.bytes ∧ RunGoesOn idle64 emptyRun ∧
    ∃ s1 s2, takeTurns (startTurn :: emptyRun) idle64 = .next s1 ∧
      takeTurn .core s1 = .next s2 ∧ s2.phase = .idle := witness_CompletedRunLeavesTheDigest

/-- LEN = 64: two blocks; the first and last step of each kind. -/
theorem witness_CoreAloneCompletesTheRun : (inPhase .idle 0 64#32).phase = .idle ∧
    (inPhase .idle 0 64#32).len.toNat ≤ (inPhase .idle 0 64#32).msgCap.bytes ∧
    1 < blockCount (inPhase .idle 0 64#32).len.toNat ∧ 0 < 114 ∧ (1 ≤ 1 ∧ 48 ≤ 48) ∧
    (49 ≤ 49 ∧ 112 ≤ 112) ∧ 113 < 114 := by decide

/-- The execution that takes STEP_FINAL and then stays in IDLE. -/
def finalThenIdle : Nat → State
  | 0 => inPhase .final 0 3#32
  | _ + 1 => (inPhase .final 0 3#32).afterFinal

theorem witness_FairRunsEnd : IsExecution finalThenIdle (fun _ => .core) ∧
    WeaklyFair finalThenIdle (fun _ => .core) ∧ (finalThenIdle 0).RunShape ∧
    (finalThenIdle 0).phase ≠ .idle := by
  refine ⟨fun n => ?_, fun n _ => ⟨n, Nat.le_refl n, rfl⟩, ?_, by decide⟩
  · cases n <;> rfl
  · exact ⟨by decide, by decide, by decide, by decide, by decide⟩

theorem witness_WriteRacingTheFinalStepHasBothOutcomes :
    (inPhase .final 0 3#32).phase = .final ∧
    4 * (15#29).toNat + 4 ≤ (inPhase .final 0 3#32).msgCap.bytes := by decide

/-- Two states that differ in W[63], before the run reads it. -/
theorem witness_DatapathResidueIsUnobservable :
    Indistinguishable (inPhase .expand 16 3#32)
      { inPhase .expand 16 3#32 with w := idle64.w.set 63 1#32 } ∧
    step (inPhase .expand 16 3#32) = .next (inPhase .expand 16 3#32).afterExpand := by
  refine ⟨⟨rfl, rfl, rfl, by decide, fun i hi => ?_⟩, rfl⟩
  have h63 : (63 : Nat) ≠ i.val := fun h => absurd (h ▸ hi : 63 < 16) (by decide)
  exact (Vector.getElem_set_ne (xs := idle64.w) (by decide) i.isLt h63).symm

/-- Two buffers that differ at address 3 = LEN. -/
theorem witness_BytesPastLenNeverReachARun :
    SameBelowLen { abcState with phase := .load } { abcState with phase := .load, msg :=
      [(0, 0x61#8), (1, 0x62#8), (2, 0x63#8), (3, 0xFF#8)] } ∧
    takeTurns (List.replicate 1 .core) { abcState with phase := .load } =
      .next (State.afterLoad { abcState with phase := .load }) := by
  refine ⟨⟨rfl, fun a ha => ?_⟩, rfl⟩
  have ha' : a < 3 := ha
  interval_cases a <;> rfl

theorem witness_InstancesShareNoState :
    Platform.step [idle64, inPhase .final 0 3#32] 1 =
      .next [idle64, (inPhase .final 0 3#32).afterFinal] ∧ 0 ≠ 1 ∧
    [idle64, inPhase .final 0 3#32][1]? = some (inPhase .final 0 3#32) := ⟨rfl, by decide, rfl⟩

/-- A message of MSG_CAP bytes. -/
theorem witness_LoadmsgPlacesTheMessage :
    idle64.phase = .idle ∧ (List.replicate 64 0x61#8).length ≤ idle64.msgCap.bytes := by decide

/-- "abc", with a read of STATUS and a write of LEN among the core's steps. -/
theorem witness_DigestProtocolYieldsTheDigest : abcState.phase = .idle ∧
    [0x61#8, 0x62#8, 0x63#8].length ≤ abcState.msgCap.bytes ∧
    abcState.len.toNat = [0x61#8, 0x62#8, 0x63#8].length ∧
    (∀ i, i < [0x61#8, 0x62#8, 0x63#8].length →
      some (abcState.msgByte i) = [0x61#8, 0x62#8, 0x63#8][i]?) ∧
    (∀ u, u ∈ [Turn.core, .access (.read 0x04#32), .access (.write 0x08#32 9#32)] → u = .core ∨
      ∃ a, u = .access a ∧ (∀ d, decodeAccess a ≠ .wrCtrlClear d) ∧
        ∀ d, decodeAccess a ≠ .wrCtrlStart d) ∧
    115 ≤ (List.replicate 115 Turn.core).count .core := by
  have hr : decodeAccess (.read 0x04#32) = .rdStatus := rfl
  have hw : decodeAccess (.write 0x08#32 9#32) = .wrLen 9#32 := rfl
  refine ⟨rfl, by decide, by decide, by decide, fun u hu => ?_, by simp⟩
  simp only [List.mem_cons, List.not_mem_nil, or_false] at hu
  rcases hu with rfl | rfl | rfl
  · exact .inl rfl
  · exact .inr ⟨_, rfl, by simp [hr], by simp [hr]⟩
  · exact .inr ⟨_, rfl, by simp [hw], by simp [hw]⟩

theorem witness_WaitLoopsWhileBusy :
    (HostAgent.mk (pseudoWait 0 7) 0 []).lines = pseudoWait 0 7 ∧
    (HostAgent.mk (pseudoWait 0 7) 0 []).at_ = 0 ∧ (inPhase .load 0 3#32).phase ≠ .idle ∧
    idle64.phase = .idle := by decide

end Sys2Proof.Tests
end

namespace Sys2Proof.Machine

/-! ### What the step selects -/

/-- With no turn to come the core moves (log 5). -/
theorem step_of_no_turn {s : State} (h : s.turns = []) : step s = coreTurn s := by
  simp only [step, nextTransition, h]

/-- The first turn to come is taken, from the state without it (log 4). -/
theorem step_of_turn {s : State} {u : Turn} {us : List Turn} (h : s.turns = u :: us) :
    step s = takeTurn u (s.withTurns us) := by
  simp only [step, nextTransition, h]

/-- The core's turn runs the instruction of the phase code (R63, R96). -/
theorem coreTurn_of_decode {s : State} {i : Instr}
    (h : decode (.phase (codeOfPhase s.phase)) = .ok i) : coreTurn s = exec i s := by
  rw [decode] at h
  simp only [coreTurn, h]

/-- Settles O6: the first of `turns` is taken by `step_of_turn`, and the core runs what its phase
code decodes to by `coreTurn_of_decode`. -/
theorem stepRunsTheSelectedInstruction : Obligations.StepRunsTheSelectedInstruction := by
  refine ⟨fun s a us h => ?access, fun s us i h hi => ?core, fun s i h hi => ?coreNoTurn,
    fun s us h hp => ?idle, fun s h hp => ?idleNoTurn, fun s us h => ?reset⟩
  case access => exact step_of_turn h
  case core => exact (step_of_turn h).trans (coreTurn_of_decode (s := s.withTurns us) hi)
  case coreNoTurn => exact (step_of_no_turn h).trans (coreTurn_of_decode hi)
  case idle => exact (step_of_turn h).trans (coreTurn_idle (s := s.withTurns us) hp)
  case idleNoTurn => exact (step_of_no_turn h).trans (coreTurn_idle hp)
  case reset => exact step_of_turn h

/-! ### Runs of the step -/

theorem State.withTurns_self {s : State} {us : List Turn} (h : s.turns = us) :
    s.withTurns us = s := by
  subst h; rfl

/-- A run whose first step answers goes on from that answer. -/
theorem run_succ_of_step {M : Host.Core} {s t : M.State} (h : M.step s = .next t) (k : Nat) :
    M.run (k + 1) s = M.run k t := by
  simp only [Host.Core.run, h]

/-- The step of a state with a turn placed takes that turn and keeps the turns after it: no turn
reads or writes the list. -/
theorem step_withTurns_cons {u : Turn} {s t : State} (h : takeTurn u s = .next t)
    (us : List Turn) : step (s.withTurns (u :: us)) = .next (t.withTurns us) :=
  takeTurn_withTurns h us

/-- Settles O10, by induction on the turns: each step of the run takes the first of them, and ends
in the state the turn alone leads to, with the other turns still to come. -/
theorem everyInterleavingIsARunOfStep : Obligations.EveryInterleavingIsARunOfStep := by
  intro us
  induction us with
  | nil =>
    intro s h
    rw [State.withTurns_self h]
    rfl
  | cons u us ih =>
    intro s h
    obtain ⟨t, ht⟩ := takeTurn_next u s
    have hkeep : t.turns = [] := (takeTurn_keeps_turns ht).trans h
    rw [takeTurns_cons ht, ← ih t hkeep]
    have hstep : Sys2Proof.core.step (s.withTurns (u :: us)) = .next (t.withTurns us) :=
      step_withTurns_cons ht us
    exact run_succ_of_step hstep us.length

/-! ### The capacity -/

/-- No turn writes MSG_CAP, the reset input included (R33; log 17). -/
theorem takeTurn_keeps_msgCap {u : Turn} {s t : State} (h : takeTurn u s = .next t) :
    t.msgCap = s.msgCap := by
  cases u with
  | access a => exact (exec_keeps_parameters h).1
  | core =>
    rcases coreTurn_next h with c | c | c | c | c | c <;> obtain ⟨-, rfl⟩ := c <;> simp
  | reset => obtain rfl := Host.Outcome.next.inj h; rfl

theorem step_keeps_msgCap {s t : State} (h : step s = .next t) : t.msgCap = s.msgCap := by
  obtain ⟨u, us, hu⟩ := step_is_turn h
  exact (takeTurn_keeps_msgCap hu).trans (s.withTurns_msgCap us)

/-- Settles O31: a step is one turn, which keeps MSG_CAP, and every value of `MsgCap` is legal. -/
theorem capacityIsTheSameAtEveryTime : Obligations.CapacityIsTheSameAtEveryTime :=
  fun _ t h => ⟨step_keeps_msgCap h, msgCap_bytes_legal t.msgCap⟩

/-! ### Rotations, shifts and the sigma functions -/

/-- Bit i of ROTR comes from the right shift where i + n is below 32, and from the bits that
re-enter on the left where it is not (R11). -/
theorem rotr_getLsbD (x : Word) {n i : Nat} (h1 : 1 ≤ n) (h31 : n ≤ 31) (hi : i < 32) :
    (rotr x n).getLsbD i = x.getLsbD ((i + n) % 32) := by
  rw [rotr, BitVec.getLsbD_or, BitVec.getLsbD_ushiftRight, BitVec.getLsbD_shiftLeft]
  rcases Nat.lt_or_ge (i + n) 32 with h | h
  · have hlow : i < 32 - n := by omega
    rw [Nat.mod_eq_of_lt h, Nat.add_comm n i]
    simp [hlow]
  · have hwrap : (i + n) % 32 = i - (32 - n) := by omega
    have hhigh : ¬ i < 32 - n := by omega
    rw [BitVec.getLsbD_of_ge x (n + i) (by omega), hwrap]
    simp [hhigh, hi]

theorem shr_getLsbD (x : Word) (n i : Nat) : (shr x n).getLsbD i = x.getLsbD (i + n) := by
  rw [shr, BitVec.getLsbD_ushiftRight, Nat.add_comm]

theorem shr_toNat (x : Word) (n : Nat) : (shr x n).toNat = x.toNat / 2 ^ n := by
  rw [shr, BitVec.toNat_ushiftRight, Nat.shiftRight_eq_div_pow]

/-- Settles O37: each sigma is an exclusive or of words, so its bits are those of `rotr_getLsbD`
and `shr_getLsbD`. -/
theorem rotationsShiftsAndSigmasBitByBit : Obligations.RotationsShiftsAndSigmasBitByBit := by
  intro x n
  refine ⟨fun h1 h31 i hi => rotr_getLsbD x h1 h31 hi, fun _ => shr_toNat x n, fun i hi => ?_⟩
  have hrot : ∀ n, 1 ≤ n → n ≤ 31 → (rotr x n).getLsbD i = x.getLsbD ((i + n) % 32) :=
    fun n h1 h31 => rotr_getLsbD x h1 h31 hi
  simp [smallSigma0, smallSigma1, bigSigma0, bigSigma1, hrot, shr_getLsbD]

/-! ### The race of a window write with STEP_FINAL -/

/-- The access at the offset of window word i runs the window write (R60, R121). -/
theorem takeTurn_writeWindow (s : State) (i : BitVec 29) (d : Word) :
    takeTurn (.access (.write (windowOff i) d)) s = .next (s.writeWindow i d).writeReturns := by
  rw [takeTurn_access, (decodeAccess_windowOff i d).2]
  rfl

theorem takeTurn_core_final {s : State} (h : s.phase = .final) :
    takeTurn .core s = .next s.afterFinal :=
  coreTurn_final h

/-- Settles O54: before STEP_FINAL the write meets a busy block, after it an idle one, and neither
write reaches HS or DIGEST. -/
theorem writeRacingTheFinalStepHasBothOutcomes :
    Obligations.WriteRacingTheFinalStepHasBothOutcomes := by
  intro s i d hp hcap
  have hearly : takeTurn (.access (.write (windowOff i) d)) s
      = .next s.raiseErrBusy.writeReturns := by
    rw [takeTurn_writeWindow, State.writeWindow_busy hcap (by simp [hp])]
  have hlate : takeTurn (.access (.write (windowOff i) d)) s.afterFinal
      = .next (s.afterFinal.writeMsgWord i d).writeReturns := by
    rw [takeTurn_writeWindow, State.writeWindow_idle (s := s.afterFinal) hcap rfl]
  have hfinal : s.raiseErrBusy.writeReturns.phase = .final := hp
  refine ⟨s.raiseErrBusy.writeReturns.afterFinal, (s.afterFinal.writeMsgWord i d).writeReturns,
    ?early, ?late, rfl, rfl, rfl, ?stored, rfl, rfl, rfl, rfl⟩
  case early =>
    rw [takeTurns_cons hearly, takeTurns_cons (takeTurn_core_final hfinal), takeTurns_nil]
  case late => rw [takeTurns_cons (takeTurn_core_final hp), takeTurns_cons hlate, takeTurns_nil]
  case stored => exact s.afterFinal.msgWord_writeMsgWord_same i d

end Sys2Proof.Machine

namespace Sys2Proof.Machine

/-! ### Invariants of a step -/

/-- An invariant that the list of turns does not touch and that every turn keeps is kept by every
step. -/
theorem step_keeps {P : State → Prop} (hturns : ∀ s us, P s → P (s.withTurns us))
    (hturn : ∀ u s t, P s → takeTurn u s = .next t → P t) {s t : State} (hs : P s)
    (h : step s = .next t) : P t := by
  obtain ⟨u, us, hu⟩ := step_is_turn h
  exact hturn u _ t (hturns s us hs) hu

/-! ### The buffer -/

/-- What one turn does to the buffer: nothing, a word write within capacity, or, at the reset input,
a new draw. -/
theorem takeTurn_msg_cases {u : Turn} {s t : State} (h : takeTurn u s = .next t) :
    t.msg = s.msg ∨ t.msg = [] ∨
    ∃ (i : BitVec 29) (d : Word), 4 * i.toNat + 4 ≤ s.msgCap.bytes ∧
      t.msg = s.msg.writeWord (4 * i.toNat) d := by
  cases u with
  | reset => obtain rfl := Host.Outcome.next.inj h; exact .inr (.inl rfl)
  | core =>
    rcases coreTurn_next h with c | c | c | c | c | c <;> obtain ⟨-, rfl⟩ := c <;> simp
  | access a =>
    rcases hostOp_next (selectingPhase_decodeAccess a) h with
      ⟨d, rfl⟩ | rfl | ⟨d, -, rfl⟩ | ⟨d, -, rfl⟩ | ⟨d, -, rfl⟩ | ⟨i, d, -, rfl⟩
    · exact .inl rfl
    · exact .inl rfl
    · exact .inl rfl
    · exact .inl s.startRun_msg
    · exact .inl (s.writeLen_msg d)
    · rcases s.writeWindow_cases i d with ⟨-, hw⟩ | ⟨-, -, hw⟩ | ⟨hcap, -, hw⟩ <;> rw [hw]
      · exact .inl rfl
      · exact .inl rfl
      · exact .inr (.inr ⟨i, d, hcap, rfl⟩)

theorem takeTurn_keeps_msgCanonical (u : Turn) (s t : State) (hs : s.MsgCanonical)
    (h : takeTurn u s = .next t) : t.MsgCanonical := by
  obtain ⟨hwf, hin⟩ := hs
  rw [State.MsgCanonical, takeTurn_keeps_msgCap h]
  rcases takeTurn_msg_cases h with hm | hm | ⟨i, d, hcap, hm⟩ <;> rw [hm]
  · exact ⟨hwf, hin⟩
  · exact ⟨List.Pairwise.nil, by simp⟩
  · refine ⟨Memory.wf_writeWord hwf _ d, fun c hc => ?_⟩
    rcases Memory.mem_writeWord hc with hold | ⟨-, hnew⟩
    · exact hin c hold
    · exact Nat.lt_of_lt_of_le hnew hcap

/-- Settles O47: a turn changes the buffer by one word write within capacity at most, which keeps
the canonical form (`Memory.wf_writeWord`), or draws it anew. -/
theorem stepKeepsTheBufferCanonical : Obligations.StepKeepsTheBufferCanonical :=
  fun _ _ hs h => step_keeps (fun _ _ hP => hP) takeTurn_keeps_msgCanonical hs h

/-! ### The shape of a run -/

theorem State.RunShape.of_idle {s : State} (hp : s.phase = .idle) (ht : s.t = 0) : s.RunShape where
  lenFits h := absurd hp h
  blockInRun h := absurd hp h
  notDone h := absurd hp h
  expandFrom h := by simp [hp] at h
  indexZero _ _ := ht

theorem State.RunShape.t_of_idle {s : State} (hs : s.RunShape) (hp : s.phase = .idle) : s.t = 0 :=
  hs.indexZero (by simp [hp]) (by simp [hp])

/-- The shape of a run depends on six elements alone. -/
theorem State.RunShape.congr {s t : State} (hs : s.RunShape) (hphase : t.phase = s.phase)
    (ht : t.t = s.t) (hj : t.j = s.j) (hdone : t.done = s.done) (hlen : t.len = s.len)
    (hcap : t.msgCap = s.msgCap) : t.RunShape := by
  obtain ⟨h1, h2, h3, h4, h5⟩ := hs
  constructor <;> simpa only [hphase, ht, hj, hdone, hlen, hcap]

theorem State.RunShape.startRun {s : State} (hs : s.RunShape) : s.startRun.RunShape := by
  rcases s.startRun_cases with ⟨-, h⟩ | ⟨hp, -, h⟩ | ⟨-, hlen, h⟩ <;> rw [h]
  · exact hs.congr rfl rfl rfl rfl rfl rfl
  · exact .of_idle hp (hs.t_of_idle hp)
  · exact ⟨fun _ => hlen, fun _ => blockCount_pos _, fun _ => rfl, by simp, by simp⟩

theorem State.RunShape.writeLen {s : State} (hs : s.RunShape) (d : Word) :
    (s.writeLen d).RunShape := by
  rcases s.writeLen_cases d with ⟨-, h⟩ | ⟨hp, h⟩ <;> rw [h]
  · exact hs.congr rfl rfl rfl rfl rfl rfl
  · exact .of_idle hp (hs.t_of_idle hp)

theorem hostOp_keeps_runShape {i : Instr} (hi : selectingPhase i = none) {s t : State}
    (hs : s.RunShape) (h : exec i s = .next t) : t.RunShape := by
  rcases hostOp_next hi h with
    ⟨d, rfl⟩ | rfl | ⟨d, -, rfl⟩ | ⟨d, -, rfl⟩ | ⟨d, -, rfl⟩ | ⟨i, d, -, rfl⟩
  · exact hs.congr rfl rfl rfl rfl rfl rfl
  · exact hs.congr rfl rfl rfl rfl rfl rfl
  · exact .of_idle rfl rfl
  · exact hs.startRun.congr rfl rfl rfl rfl rfl rfl
  · exact (hs.writeLen d).congr rfl rfl rfl rfl rfl rfl
  · exact hs.congr (by simp) (by simp) (by simp) (by simp) (by simp) (by simp)

/-- A step of a run keeps the shape if it leaves LEN, MSG_CAP and DONE alone, leaves j at a block
that the message has, and t where its phase has it. -/
theorem State.RunShape.of_run {s t : State} (hs : s.RunShape) (hp : s.phase ≠ .idle)
    (hlen : t.len = s.len) (hcap : t.msgCap = s.msgCap) (hdone : t.done = s.done)
    (hj : t.j < blockCount s.len.toNat) (hexpand : t.phase = .expand → 16 ≤ t.t.val)
    (hzero : t.phase ≠ .expand → t.phase ≠ .round → t.t = 0) : t.RunShape where
  lenFits _ := by rw [hlen, hcap]; exact hs.lenFits hp
  blockInRun _ := by rw [hlen]; exact hj
  notDone _ := hdone.trans (hs.notDone hp)
  expandFrom := hexpand
  indexZero := hzero

theorem State.RunShape.afterLoad {s : State} (hs : s.RunShape) (hp : s.phase = .load) :
    s.afterLoad.RunShape :=
  have hrun : s.phase ≠ .idle := by simp [hp]
  hs.of_run hrun rfl rfl rfl (hs.blockInRun hrun) (by simp) (by simp)

/-- In EXPAND t grows from 16 or more, and goes to 0 with the phase ROUND. -/
theorem State.RunShape.afterExpand {s : State} (hs : s.RunShape) (hp : s.phase = .expand) :
    s.afterExpand.RunShape := by
  have hrun : s.phase ≠ .idle := by simp [hp]
  have hfrom := hs.expandFrom hp
  refine hs.of_run hrun (by simp) (by simp) (by simp) (by simpa using hs.blockInRun hrun) ?_ ?_ <;>
    rcases index_cases s.t with h63 | hlt
  · simp [State.afterExpand_last h63]
  · obtain ⟨ht, -⟩ := State.afterExpand_next hlt
    omega
  · simp [State.afterExpand_last h63]
  · simp [State.afterExpand_next hlt, hp]

theorem State.RunShape.afterRound {s : State} (hs : s.RunShape) (hp : s.phase = .round) :
    s.afterRound.RunShape := by
  have hrun : s.phase ≠ .idle := by simp [hp]
  refine hs.of_run hrun (by simp) (by simp) (by simp) (by simpa using hs.blockInRun hrun) ?_ ?_ <;>
    rcases index_cases s.t with h63 | hlt
  · simp [State.afterRound_last h63]
  · simp [State.afterRound_next hlt, hp]
  · simp [State.afterRound_last h63]
  · simp [State.afterRound_next hlt, hp]

/-- The block loop goes on only to a block that the message has. -/
theorem State.RunShape.afterAccum {s : State} (hs : s.RunShape) (hp : s.phase = .accum) :
    s.afterAccum.RunShape := by
  have hrun : s.phase ≠ .idle := by simp [hp]
  have ht : s.afterAccum.t = 0 := by
    rw [State.afterAccum_t]
    exact hs.indexZero (by simp [hp]) (by simp [hp])
  refine hs.of_run hrun (by simp) (by simp) (by simp) ?_ ?_ (fun _ _ => ht) <;>
    rcases Nat.lt_or_ge (s.j + 1) (blockCount s.len.toNat) with hmore | hend
  · rwa [(State.afterAccum_more hmore).1]
  · rw [(State.afterAccum_end hend).1]
    exact hs.blockInRun hrun
  · simp [State.afterAccum_more hmore]
  · simp [State.afterAccum_end hend]

theorem coreTurn_keeps_runShape {s t : State} (hs : s.RunShape) (h : coreTurn s = .next t) :
    t.RunShape := by
  rcases coreTurn_next h with
    ⟨-, rfl⟩ | ⟨hp, rfl⟩ | ⟨hp, rfl⟩ | ⟨hp, rfl⟩ | ⟨hp, rfl⟩ | ⟨hp, rfl⟩
  · exact hs
  · exact hs.afterLoad hp
  · exact hs.afterExpand hp
  · exact hs.afterRound hp
  · exact hs.afterAccum hp
  · exact .of_idle rfl (hs.indexZero (by simp [hp]) (by simp [hp]))

theorem takeTurn_keeps_runShape (u : Turn) (s t : State) (hs : s.RunShape)
    (h : takeTurn u s = .next t) : t.RunShape := by
  cases u with
  | access a => exact hostOp_keeps_runShape (selectingPhase_decodeAccess a) hs h
  | core => exact coreTurn_keeps_runShape hs h
  | reset => obtain rfl := Host.Outcome.next.inj h; exact .of_idle rfl rfl

/-- Settles O48: a step is one turn, and a host operation, a core step and the reset input each keep
the shape. -/
theorem stepKeepsTheRunShape : Obligations.StepKeepsTheRunShape :=
  fun _ _ hs h =>
    step_keeps (fun _ _ hP => hP.congr rfl rfl rfl rfl rfl rfl) takeTurn_keeps_runShape hs h

/-! ### The hidden datapath -/

/-- The state with another hidden datapath HS, V, W (R36). -/
def State.withDatapath (s : State) (h v : Words8) (w : Schedule) : State :=
  { s with hs := h, v := v, w := w }

@[simp] theorem State.withDatapath_hs (s : State) (h v : Words8) (w : Schedule) :
    (s.withDatapath h v w).hs = h := rfl

@[simp] theorem State.withDatapath_v (s : State) (h v : Words8) (w : Schedule) :
    (s.withDatapath h v w).v = v := rfl

@[simp] theorem State.withDatapath_w (s : State) (h v : Words8) (w : Schedule) :
    (s.withDatapath h v w).w = w := rfl

theorem sameButDatapath_iff {s s' : State} :
    SameButDatapath s s' ↔ ∃ h v w, s' = s.withDatapath h v w := by
  constructor
  · intro h
    exact ⟨s'.hs, s'.v, s'.w, h.symm⟩
  · rintro ⟨h, v, w, rfl⟩
    rfl

/-- Which part of the datapath is live depends on phase and t alone. -/
theorem LiveDatapathAgrees.congr {s s' t t' : State} (hl : LiveDatapathAgrees s s')
    (hphase : t.phase = s.phase) (ht : t.t = s.t) (hhs : t.hs = s.hs) (hv : t.v = s.v)
    (hw : t.w = s.w) (hhs' : t'.hs = s'.hs) (hv' : t'.v = s'.v) (hw' : t'.w = s'.w) :
    LiveDatapathAgrees t t' := by
  simpa only [LiveDatapathAgrees, hphase, ht, hhs, hv, hw, hhs', hv', hw'] using hl

theorem LiveDatapathAgrees.of_idle {s s' : State} (hp : s.phase = .idle) :
    LiveDatapathAgrees s s' := by
  simp [LiveDatapathAgrees, hp]

theorem liveDatapathAgrees_load {s s' : State} (hp : s.phase = .load) :
    LiveDatapathAgrees s s' ↔ s.hs = s'.hs := by
  rw [LiveDatapathAgrees, hp]

theorem liveDatapathAgrees_expand {s s' : State} (hp : s.phase = .expand) :
    LiveDatapathAgrees s s' ↔ s.hs = s'.hs ∧ s.v = s'.v ∧ 16 ≤ s.t.val ∧
      ∀ i : Fin 64, i.val < s.t.val → s.w.get i = s'.w.get i := by
  rw [LiveDatapathAgrees, hp]

theorem liveDatapathAgrees_round {s s' : State} (hp : s.phase = .round) :
    LiveDatapathAgrees s s' ↔ s.hs = s'.hs ∧ s.v = s'.v ∧ s.w = s'.w := by
  rw [LiveDatapathAgrees, hp]

theorem liveDatapathAgrees_accum {s s' : State} (hp : s.phase = .accum) :
    LiveDatapathAgrees s s' ↔ s.hs = s'.hs ∧ s.v = s'.v := by
  rw [LiveDatapathAgrees, hp]

theorem liveDatapathAgrees_final {s s' : State} (hp : s.phase = .final) :
    LiveDatapathAgrees s s' ↔ s.hs = s'.hs := by
  rw [LiveDatapathAgrees, hp]

/-! ### Host operations from indistinguishable states -/

@[simp] theorem State.writeLen_withDatapath (s : State) (h v : Words8) (w : Schedule) (d : Word) :
    (s.withDatapath h v w).writeLen d = (s.writeLen d).withDatapath h v w := by
  simp only [State.writeLen]
  rw [apply_ite (State.withDatapath · h v w)]
  rfl

@[simp] theorem State.writeWindow_withDatapath (s : State) (h v : Words8) (w : Schedule)
    (i : BitVec 29) (d : Word) :
    (s.withDatapath h v w).writeWindow i d = (s.writeWindow i d).withDatapath h v w := by
  simp only [State.writeWindow]
  rw [apply_ite (State.withDatapath · h v w), apply_ite (State.withDatapath · h v w)]
  rfl

/-- No host operation but START reads or writes the datapath. -/
theorem hostOp_withDatapath {i : Instr} (hi : selectingPhase i = none)
    (hstart : ∀ d, i ≠ .wrCtrlStart d) {s t : State} (h : exec i s = .next t) (x v : Words8)
    (w : Schedule) : exec i (s.withDatapath x v w) = .next (t.withDatapath x v w) := by
  cases i
  case wrCtrlStart d => exact absurd rfl (hstart d)
  case stepLoad | stepExpand | stepRound | stepAccum | stepFinal => cases hi
  case wrLen d =>
    obtain rfl := Host.Outcome.next.inj h
    simp only [exec, execWrLen, State.writeLen_withDatapath]
    rfl
  case wrMsg i d =>
    obtain rfl := Host.Outcome.next.inj h
    simp only [exec, execWrMsg, State.writeWindow_withDatapath]
    rfl
  all_goals obtain rfl := Host.Outcome.next.inj h; rfl

/-- A host operation but START leaves the datapath and the place in the run, or is a CLEAR, which
ends the run. -/
theorem hostOp_keeps_place {i : Instr} (hi : selectingPhase i = none)
    (hstart : ∀ d, i ≠ .wrCtrlStart d) {s t : State} (h : exec i s = .next t) :
    t.phase = .idle ∨
    (t.phase = s.phase ∧ t.t = s.t ∧ t.hs = s.hs ∧ t.v = s.v ∧ t.w = s.w) := by
  rcases hostOp_next hi h with
    ⟨d, rfl⟩ | rfl | ⟨d, -, rfl⟩ | ⟨d, hd, -⟩ | ⟨d, -, rfl⟩ | ⟨n, d, -, rfl⟩
  · simp
  · simp
  · exact .inl rfl
  · exact absurd hd (hstart d)
  · simp
  · simp

/-- A START is answered alike whatever the datapath holds: where it begins a run it writes HS, and
reads nothing of it. -/
theorem State.startRun_withDatapath {s : State} {x v : Words8} {w : Schedule}
    (hl : LiveDatapathAgrees s (s.withDatapath x v w)) :
    ∃ x', (s.withDatapath x v w).startRun = s.startRun.withDatapath x' v w ∧
      LiveDatapathAgrees s.startRun (s.startRun.withDatapath x' v w) := by
  rcases s.startRun_cases with ⟨hp, h⟩ | ⟨hp, hlen, h⟩ | ⟨hp, hlen, h⟩ <;> rw [h]
  · exact ⟨x, State.startRun_busy (s := s.withDatapath x v w) hp,
      hl.congr rfl rfl rfl rfl rfl rfl rfl rfl⟩
  · exact ⟨x, State.startRun_rejected (s := s.withDatapath x v w) hp hlen, .of_idle hp⟩
  · exact ⟨iv, State.startRun_accepted (s := s.withDatapath x v w) hp hlen, rfl⟩

theorem hostOp_keeps_indistinguishable {i : Instr} (hi : selectingPhase i = none) {s s' t : State}
    (hs : Indistinguishable s s') (h : exec i s = .next t) :
    ∃ t', exec i s' = .next t' ∧ Indistinguishable t t' := by
  obtain ⟨hsame, hl⟩ := hs
  obtain ⟨x, v, w, rfl⟩ := sameButDatapath_iff.1 hsame
  by_cases hstart : ∃ d, i = .wrCtrlStart d
  · obtain ⟨d, rfl⟩ := hstart
    obtain rfl := Host.Outcome.next.inj h
    obtain ⟨x', hx', hlive⟩ := State.startRun_withDatapath hl
    refine ⟨(s.startRun.withDatapath x' v w).writeReturns, ?_, rfl,
      hlive.congr rfl rfl rfl rfl rfl rfl rfl rfl⟩
    rw [← hx']
    rfl
  · simp only [not_exists] at hstart
    refine ⟨_, hostOp_withDatapath hi hstart h x v w, rfl, ?_⟩
    rcases hostOp_keeps_place hi hstart h with hidle | ⟨hp, ht, hhs, hv, hw⟩
    · exact .of_idle hidle
    · exact hl.congr hp ht hhs hv hw rfl rfl rfl

/-! ### Sequencer steps from indistinguishable states -/

theorem State.afterLoad_withDatapath (s : State) (x v : Words8) (w : Schedule) :
    (s.withDatapath x v w).afterLoad =
      s.afterLoad.withDatapath x x (s.withDatapath x v w).loadedSchedule := rfl

theorem State.advance_withDatapath (s : State) (x v : Words8) (w : Schedule) (p : Phase) :
    (s.withDatapath x v w).advance p = (s.advance p).withDatapath x v w := by
  simp only [State.advance]
  rw [apply_ite (State.withDatapath · x v w)]
  rfl

theorem State.afterExpand_withDatapath (s : State) (x v : Words8) (w : Schedule) :
    (s.withDatapath x v w).afterExpand =
      s.afterExpand.withDatapath x v (w.set s.t (expandWord w s.t)) := by
  rw [State.afterExpand, State.afterExpand, ← State.advance_withDatapath]
  rfl

theorem State.afterRound_withDatapath (s : State) (x v : Words8) (w : Schedule) :
    (s.withDatapath x v w).afterRound =
      s.afterRound.withDatapath x (roundStep s.t.val v (w.get s.t)) w := by
  rw [State.afterRound, State.afterRound, ← State.advance_withDatapath]
  rfl

theorem State.afterAccum_withDatapath (s : State) (x v : Words8) (w : Schedule) :
    (s.withDatapath x v w).afterAccum = s.afterAccum.withDatapath (addWords x v) v w := by
  simp only [State.afterAccum]
  rw [apply_ite (State.withDatapath · (addWords x v) v w)]
  rfl

/-- From t = 16 on, the next schedule word is computed from words below t. -/
theorem expandWord_congr {w w' : Schedule} {t : Fin 64} (ht : 16 ≤ t.val)
    (h : ∀ i : Fin 64, i.val < t.val → w.get i = w'.get i) :
    expandWord w t = expandWord w' t := by
  have hback : ∀ n : Fin 64, 0 < n.val → n.val ≤ 16 → w.get (t - n) = w'.get (t - n) := by
    intro n hpos hle
    refine h _ ?_
    rw [index_sub (hle.trans ht)]
    omega
  rw [expandWord, expandWord, hback 2 (by decide) (by decide), hback 7 (by decide) (by decide),
    hback 15 (by decide) (by decide), hback 16 (by decide) (by decide)]

theorem schedule_get_set (w : Schedule) (t i : Fin 64) (d : Word) :
    (w.set t d).get i = if i = t then d else w.get i := by
  simp [Vector.get_eq_getElem, Vector.getElem_set, Fin.ext_iff, eq_comm]

/-- One EXPAND extends the agreement of two schedules from below t to below t + 1. -/
theorem expand_keeps_agreement {w w' : Schedule} {t : Fin 64} (ht : 16 ≤ t.val)
    (h : ∀ i : Fin 64, i.val < t.val → w.get i = w'.get i) (i : Fin 64) (hi : i.val < t.val + 1) :
    (w.set t (expandWord w t)).get i = (w'.set t (expandWord w' t)).get i := by
  rw [schedule_get_set, schedule_get_set, expandWord_congr ht h]
  split
  · rfl
  · exact h i (by omega)

theorem LiveDatapathAgrees.afterLoad {s : State} {x v : Words8} {w : Schedule}
    (hp : s.phase = .load) (hl : LiveDatapathAgrees s (s.withDatapath x v w)) :
    LiveDatapathAgrees s.afterLoad (s.withDatapath x v w).afterLoad := by
  have hx : s.hs = x := (liveDatapathAgrees_load hp).1 hl
  refine (liveDatapathAgrees_expand rfl).2 ⟨hx, hx, Nat.le_refl 16, fun i hi => ?_⟩
  exact (s.loadedSchedule_low i hi).trans ((s.withDatapath x v w).loadedSchedule_low i hi).symm

theorem LiveDatapathAgrees.afterExpand {s : State} {x v : Words8} {w : Schedule}
    (hp : s.phase = .expand) (hl : LiveDatapathAgrees s (s.withDatapath x v w)) :
    LiveDatapathAgrees s.afterExpand (s.withDatapath x v w).afterExpand := by
  obtain ⟨hx, hv, h16, hw⟩ := (liveDatapathAgrees_expand hp).1 hl
  have hagree := expand_keeps_agreement h16 hw
  rw [State.afterExpand_withDatapath]
  rcases index_cases s.t with h63 | hlt
  · obtain ⟨-, hq⟩ := State.afterExpand_last h63
    refine (liveDatapathAgrees_round hq).2 ⟨by simpa, by simpa, ?_⟩
    rw [State.afterExpand_w]
    exact Vector.ext fun i hi => hagree ⟨i, hi⟩ (by rw [h63]; exact hi)
  · obtain ⟨ht, hq⟩ := State.afterExpand_next hlt
    refine (liveDatapathAgrees_expand (hq.trans hp)).2 ⟨by simpa, by simpa, by omega, ?_⟩
    rw [State.afterExpand_w, ht]
    exact hagree

theorem LiveDatapathAgrees.afterRound {s : State} {x v : Words8} {w : Schedule}
    (hp : s.phase = .round) (hl : LiveDatapathAgrees s (s.withDatapath x v w)) :
    LiveDatapathAgrees s.afterRound (s.withDatapath x v w).afterRound := by
  obtain ⟨rfl, rfl, rfl⟩ : s.hs = x ∧ s.v = v ∧ s.w = w := (liveDatapathAgrees_round hp).1 hl
  rw [State.afterRound_withDatapath]
  rcases index_cases s.t with h63 | hlt
  · obtain ⟨-, hq⟩ := State.afterRound_last h63
    exact (liveDatapathAgrees_accum hq).2 (by simp)
  · obtain ⟨-, hq⟩ := State.afterRound_next hlt
    exact (liveDatapathAgrees_round (hq.trans hp)).2 (by simp)

theorem LiveDatapathAgrees.afterAccum {s : State} {x v : Words8} {w : Schedule}
    (hp : s.phase = .accum) (hl : LiveDatapathAgrees s (s.withDatapath x v w)) :
    LiveDatapathAgrees s.afterAccum (s.withDatapath x v w).afterAccum := by
  obtain ⟨rfl, rfl⟩ : s.hs = x ∧ s.v = v := (liveDatapathAgrees_accum hp).1 hl
  rw [State.afterAccum_withDatapath]
  rcases Nat.lt_or_ge (s.j + 1) (blockCount s.len.toNat) with hmore | hend
  · obtain ⟨-, hq⟩ := State.afterAccum_more hmore
    exact (liveDatapathAgrees_load hq).2 s.afterAccum_hs
  · obtain ⟨-, hq⟩ := State.afterAccum_end hend
    exact (liveDatapathAgrees_final hq).2 s.afterAccum_hs

/-- STEP_FINAL is the one step that shows HS to the host, and HS is live there. -/
theorem State.afterFinal_withDatapath {s : State} {x v : Words8} {w : Schedule}
    (hp : s.phase = .final) (hl : LiveDatapathAgrees s (s.withDatapath x v w)) :
    (s.withDatapath x v w).afterFinal = s.afterFinal.withDatapath x v w := by
  obtain rfl : s.hs = x := (liveDatapathAgrees_final hp).1 hl
  rfl

theorem coreTurn_keeps_indistinguishable {s s' t : State} (hi : Indistinguishable s s')
    (h : coreTurn s = .next t) : ∃ t', coreTurn s' = .next t' ∧ Indistinguishable t t' := by
  obtain ⟨hsame, hl⟩ := hi
  obtain ⟨x, v, w, rfl⟩ := sameButDatapath_iff.1 hsame
  rcases coreTurn_next h with
    ⟨hp, rfl⟩ | ⟨hp, rfl⟩ | ⟨hp, rfl⟩ | ⟨hp, rfl⟩ | ⟨hp, rfl⟩ | ⟨hp, rfl⟩
  · exact ⟨_, coreTurn_idle (s := t.withDatapath x v w) hp, hsame, hl⟩
  · exact ⟨_, coreTurn_load (s := s.withDatapath x v w) hp,
      sameButDatapath_iff.2 ⟨_, _, _, s.afterLoad_withDatapath x v w⟩, hl.afterLoad hp⟩
  · exact ⟨_, coreTurn_expand (s := s.withDatapath x v w) hp,
      sameButDatapath_iff.2 ⟨_, _, _, s.afterExpand_withDatapath x v w⟩, hl.afterExpand hp⟩
  · exact ⟨_, coreTurn_round (s := s.withDatapath x v w) hp,
      sameButDatapath_iff.2 ⟨_, _, _, s.afterRound_withDatapath x v w⟩, hl.afterRound hp⟩
  · exact ⟨_, coreTurn_accum (s := s.withDatapath x v w) hp,
      sameButDatapath_iff.2 ⟨_, _, _, s.afterAccum_withDatapath x v w⟩, hl.afterAccum hp⟩
  · exact ⟨_, coreTurn_final (s := s.withDatapath x v w) hp,
      sameButDatapath_iff.2 ⟨_, _, _, State.afterFinal_withDatapath hp hl⟩, .of_idle rfl⟩

theorem takeTurn_keeps_indistinguishable {u : Turn} {s s' t : State}
    (hs : Indistinguishable s s') (h : takeTurn u s = .next t) :
    ∃ t', takeTurn u s' = .next t' ∧ Indistinguishable t t' := by
  cases u with
  | access a => exact hostOp_keeps_indistinguishable (selectingPhase_decodeAccess a) hs h
  | core => exact coreTurn_keeps_indistinguishable hs h
  | reset =>
    obtain rfl := Host.Outcome.next.inj h
    obtain ⟨x, v, w, rfl⟩ := sameButDatapath_iff.1 hs.1
    exact ⟨_, rfl, rfl, .of_idle rfl⟩

theorem Indistinguishable.turns_eq {s s' : State} (hs : Indistinguishable s s') :
    s'.turns = s.turns :=
  (congrArg State.turns hs.1).symm

theorem Indistinguishable.rdata_eq {s s' : State} (hs : Indistinguishable s s') :
    s'.rdata = s.rdata :=
  (congrArg State.rdata hs.1).symm

theorem Indistinguishable.withTurns {s s' : State} (hs : Indistinguishable s s')
    (us : List Turn) : Indistinguishable (s.withTurns us) (s'.withTurns us) :=
  ⟨congrArg (State.withTurns · us) hs.1, hs.2.congr rfl rfl rfl rfl rfl rfl rfl rfl⟩

/-- Settles O55: both states take the same turn, and every turn keeps them indistinguishable, so
also the word returned is the same. -/
theorem datapathResidueIsUnobservable : Obligations.DatapathResidueIsUnobservable := by
  intro s s' t hs h
  suffices hstep : ∃ t', step s' = .next t' ∧ Indistinguishable t t' by
    obtain ⟨t', ht', hi⟩ := hstep
    exact ⟨t', ht', hi, hi.rdata_eq⟩
  rcases step_cases s with ⟨hnil, hstep⟩ | ⟨u, us, hcons, hstep⟩ <;> rw [hstep] at h
  · rw [step_of_no_turn (hs.turns_eq.trans hnil)]
    exact coreTurn_keeps_indistinguishable hs h
  · rw [step_of_turn (hs.turns_eq.trans hcons)]
    exact takeTurn_keeps_indistinguishable (hs.withTurns us) h

/-! ### STATUS -/

/-- The decoder does not see the ignored offset bits 1:0 (R39). -/
theorem decodeAccess_aligned (a : Access) : decodeAccess a.aligned = decodeAccess a := by
  cases a <;>
    simp only [Access.aligned, decodeAccess, regionOf, decodeRegisterRead, decodeRegisterWrite,
      alignOff_alignOff]

theorem decodeAccess_read_of_alignOff {off o : Word} (h : alignOff off = o) :
    decodeAccess (.read off) = decodeAccess (.read o) := by
  rw [← decodeAccess_aligned (.read off), Access.aligned, h]

theorem decodeAccess_write_of_alignOff {off o : Word} (h : alignOff off = o) (d : Word) :
    decodeAccess (.write off d) = decodeAccess (.write o d) := by
  rw [← decodeAccess_aligned (.write off d), Access.aligned, h]

theorem State.busy_eq_decide (s : State) : s.busy = decide (s.phase ≠ .idle) :=
  Bool.eq_iff_iff.2 (s.busy_iff.trans decide_eq_true_iff.symm)

/-- The STATUS word bit by bit (R27). -/
theorem State.statusWord_getLsbD (s : State) (n : Nat) : s.statusWord.getLsbD n =
    if n = 0 then s.busy else if n = 1 then s.done else if n = 2 then s.errBusy
    else if n = 3 then s.errLen else false := by
  simp only [State.statusWord, BitVec.getLsbD_setWidth, BitVec.getLsbD_append,
    BitVec.getLsbD_ofBool]
  rcases n with _ | _ | _ | _ | n <;> simp

/-- Settles O16: the offset decodes as 0x04 by `decodeAccess_aligned`, and the word returned is the
one of `State.statusWord_getLsbD`. -/
theorem statusReadShowsItsFields : Obligations.StatusReadShowsItsFields := by
  refine ⟨fun s off d hoff => ⟨?read, ⟨s.statusWord, rfl, ?busy, ?done, ?errBusy, ?errLen, ?high⟩,
    ?write, rfl⟩, by decide⟩
  case read => rw [decodeAccess_read_of_alignOff hoff]; rfl
  case write => rw [decodeAccess_write_of_alignOff hoff]; rfl
  case busy => rw [s.statusWord_getLsbD, ← s.busy_eq_decide]; rfl
  case done | errBusy | errLen => rw [s.statusWord_getLsbD]; rfl
  case high =>
    intro n hn
    obtain ⟨k, rfl⟩ := Nat.exists_eq_add_of_le' hn
    rw [s.statusWord_getLsbD]
    rfl

/-! ### Accesses during a run -/

/-- The operations that a running block rejects with ERR_BUSY: a START, a LEN write, and a window
write within capacity (R30). -/
def RejectedWhileBusy (s : State) (i : Instr) : Prop :=
  (∃ d, i = .wrCtrlStart d) ∨ (∃ d, i = .wrLen d) ∨
    ∃ n d, i = .wrMsg n d ∧ 4 * n.toNat + 4 ≤ s.msgCap.bytes

theorem exec_rejectedWhileBusy {s : State} {i : Instr} (hbusy : s.phase ≠ .idle)
    (hi : RejectedWhileBusy s i) : exec i s = .next s.raiseErrBusy.writeReturns := by
  rcases hi with ⟨d, rfl⟩ | ⟨d, rfl⟩ | ⟨n, d, rfl, hcap⟩
  · rw [exec, execWrCtrlStart, State.startRun_busy hbusy]
  · rw [exec, execWrLen, State.writeLen_busy hbusy]
  · rw [exec, execWrMsg, State.writeWindow_busy hcap hbusy]

/-- Every other host operation but CLEAR leaves everything but the word returned. -/
theorem exec_not_rejectedWhileBusy {s : State} {i : Instr} (hi : selectingPhase i = none)
    (hclear : ∀ d, i ≠ .wrCtrlClear d) (hr : ¬ RejectedWhileBusy s i) :
    ∃ r, exec i s = .next { s with rdata := r } := by
  cases i
  case stepLoad | stepExpand | stepRound | stepAccum | stepFinal => cases hi
  case wrCtrlClear d => exact absurd rfl (hclear d)
  case wrCtrlStart d => exact absurd (.inl ⟨d, rfl⟩) hr
  case wrLen d => exact absurd (.inr (.inl ⟨d, rfl⟩)) hr
  case wrMsg n d =>
    have hcap : s.msgCap.bytes < 4 * n.toNat + 4 :=
      Nat.lt_of_not_le fun hle => hr (.inr (.inr ⟨n, d, rfl, hle⟩))
    rw [exec, execWrMsg, State.writeWindow_beyond hcap]
    exact ⟨none, rfl⟩
  all_goals exact ⟨_, rfl⟩

/-- Settles O25: an access that a running block rejects sets ERR_BUSY alone, and any other but
CLEAR sets nothing. -/
theorem runIsUndisturbedByHostAccesses : Obligations.RunIsUndisturbedByHostAccesses := by
  intro s t a hbusy hclear h
  rw [takeTurn_access] at h
  change _ ∧ (_ ↔ _ ∨ RejectedWhileBusy s (decodeAccess a))
  by_cases hr : RejectedWhileBusy s (decodeAccess a)
  · rw [exec_rejectedWhileBusy hbusy hr] at h
    obtain rfl := Host.Outcome.next.inj h
    exact ⟨rfl, by simp [hr]⟩
  · obtain ⟨r, hnext⟩ := exec_not_rejectedWhileBusy (selectingPhase_decodeAccess a) hclear hr
    rw [hnext] at h
    obtain rfl := Host.Outcome.next.inj h
    exact ⟨rfl, by simp [hr]⟩

/-! ### The error bits -/

theorem State.startRun_keeps_errors (s : State) :
    (s.errBusy = true → s.startRun.errBusy = true) ∧
    (s.errLen = true → s.startRun.errLen = true) := by
  rcases s.startRun_cases with ⟨-, h⟩ | ⟨-, -, h⟩ | ⟨-, -, h⟩ <;> simp [h]

theorem State.writeLen_keeps_errBusy (s : State) (d : Word) (hs : s.errBusy = true) :
    (s.writeLen d).errBusy = true := by
  rcases s.writeLen_cases d with ⟨-, h⟩ | ⟨-, h⟩ <;> simp [h, hs]

theorem State.writeWindow_keeps_errBusy (s : State) (i : BitVec 29) (d : Word)
    (hs : s.errBusy = true) : (s.writeWindow i d).errBusy = true := by
  rcases s.writeWindow_cases i d with ⟨-, h⟩ | ⟨-, -, h⟩ | ⟨-, -, h⟩ <;> simp [h, hs]

theorem coreTurn_errors {s t : State} (h : coreTurn s = .next t) :
    t.errBusy = s.errBusy ∧ t.errLen = s.errLen := by
  rcases coreTurn_next h with c | c | c | c | c | c <;> obtain ⟨-, rfl⟩ := c <;> simp

/-- Settles O27: the core leaves the error bits alone, and no host operation but CLEAR clears one. -/
theorem errorBitsStayUntilClearOrReset : Obligations.ErrorBitsStayUntilClearOrReset := by
  intro s t u h hreset hclear
  cases u with
  | reset => exact absurd rfl hreset
  | core =>
    obtain ⟨hbusy, hlen⟩ := coreTurn_errors h
    simp [hbusy, hlen]
  | access a =>
    rcases hostOp_next (selectingPhase_decodeAccess a) h with
      ⟨d, rfl⟩ | rfl | ⟨d, hd, -⟩ | ⟨d, -, rfl⟩ | ⟨d, -, rfl⟩ | ⟨i, d, -, rfl⟩
    · exact ⟨id, id⟩
    · exact ⟨id, id⟩
    · exact absurd hd (hclear a d rfl)
    · exact s.startRun_keeps_errors
    · exact ⟨s.writeLen_keeps_errBusy d, fun hs => (s.writeLen_errLen d).trans hs⟩
    · exact ⟨s.writeWindow_keeps_errBusy i d, fun hs => (s.writeWindow_errLen i d).trans hs⟩

/-! ### DIGEST and DONE -/

theorem State.startRun_done_cases (s : State) :
    s.startRun.done = s.done ∨ (s.phase = .idle ∧ s.startRun.done = false) := by
  rcases s.startRun_cases with ⟨-, h⟩ | ⟨hp, -, h⟩ | ⟨hp, -, h⟩ <;> rw [h]
  · exact .inl rfl
  · exact .inr ⟨hp, rfl⟩
  · exact .inr ⟨hp, rfl⟩

/-- No host operation writes DIGEST, and none writes DONE but CLEAR and a START while idle, which
clear it (R29, R34). -/
theorem hostOp_digest_done {i : Instr} (hi : selectingPhase i = none) {s t : State}
    (h : exec i s = .next t) :
    t.digest = s.digest ∧
    (t.done = s.done ∨ (t.done = false ∧
      ((∃ d, i = .wrCtrlClear d) ∨ ((∃ d, i = .wrCtrlStart d) ∧ s.phase = .idle)))) := by
  rcases hostOp_next hi h with
    ⟨d, rfl⟩ | rfl | ⟨d, hd, rfl⟩ | ⟨d, hd, rfl⟩ | ⟨d, -, rfl⟩ | ⟨n, d, -, rfl⟩
  · exact ⟨rfl, .inl rfl⟩
  · exact ⟨rfl, .inl rfl⟩
  · exact ⟨rfl, .inr ⟨rfl, .inl ⟨d, hd⟩⟩⟩
  · refine ⟨s.startRun_digest, ?_⟩
    rcases s.startRun_done_cases with hsame | ⟨hp, hcleared⟩
    · exact .inl hsame
    · exact .inr ⟨hcleared, .inr ⟨⟨d, hd⟩, hp⟩⟩
  · exact ⟨s.writeLen_digest d, .inl (s.writeLen_done d)⟩
  · exact ⟨s.writeWindow_digest n d, .inl (s.writeWindow_done n d)⟩

/-- No step of the core but STEP_FINAL writes DIGEST or DONE. -/
theorem coreTurn_digest_done {s t : State} (hp : s.phase ≠ .final) (h : coreTurn s = .next t) :
    t.digest = s.digest ∧ t.done = s.done := by
  rcases coreTurn_next h with c | c | c | c | c | ⟨hf, -⟩
  case inr.inr.inr.inr.inr => exact absurd hf hp
  all_goals obtain ⟨-, rfl⟩ := c; simp

theorem eq_stepFinal_of_selectingPhase {i : Instr} (h : selectingPhase i = some .final) :
    i = .stepFinal := by
  cases i
  case stepFinal => rfl
  all_goals cases h

/-- Settles O28: a host operation by `hostOp_digest_done`, a sequencer step but STEP_FINAL by
`coreTurn_digest_done`, and STEP_FINAL leaves DONE at 1. -/
theorem onlyTheFinalStepWritesDigestAndSetsDone :
    Obligations.OnlyTheFinalStepWritesDigestAndSetsDone := by
  intro i s t h
  rcases hsel : selectingPhase i with _ | p
  · obtain ⟨hdigest, hsame | ⟨hcleared, hwhy⟩⟩ := hostOp_digest_done hsel h
    · simp +contextual [hdigest, hsame]
    · simp [hdigest, hcleared, hwhy]
  · obtain ⟨hp, hcore⟩ := execStep_next hsel h
    by_cases hfinal : p = .final
    · subst hfinal
      have hi := eq_stepFinal_of_selectingPhase hsel
      rw [coreTurn_final hp] at hcore
      obtain rfl := Host.Outcome.next.inj hcore
      exact ⟨fun _ => hi, fun _ _ => hi, by simp⟩
    · obtain ⟨hdigest, hdone⟩ := coreTurn_digest_done (hp.trans_ne hfinal) hcore
      simp +contextual [hdigest, hdone]

/-! ### What the host operations write of the datapath -/

theorem State.startRun_hs_cases (s : State) :
    s.startRun.hs = s.hs ∨
    (s.startRun.hs = iv ∧ s.phase = .idle ∧ s.startRun.phase = .load) := by
  rcases s.startRun_cases with ⟨-, h⟩ | ⟨-, -, h⟩ | ⟨hp, -, h⟩ <;> rw [h]
  · exact .inl rfl
  · exact .inl rfl
  · exact .inr ⟨rfl, hp, rfl⟩

/-- Settles O29: of the kinds of host operation only START writes a part of the datapath, HS by the
begin-run action (R97). -/
theorem hostOperationsLeaveTheDatapath : Obligations.HostOperationsLeaveTheDatapath := by
  intro i s t hi h
  rcases hostOp_next hi h with
    ⟨d, rfl⟩ | rfl | ⟨d, -, rfl⟩ | ⟨d, hd, rfl⟩ | ⟨d, -, rfl⟩ | ⟨n, d, -, rfl⟩
  case inr.inr.inr.inl =>
    refine ⟨s.startRun_v, s.startRun_w, fun hne => ?_⟩
    rcases s.startRun_hs_cases with hsame | ⟨hiv, hp, hload⟩
    · exact absurd hsame hne
    · exact ⟨hiv, ⟨d, hd⟩, hp, hload⟩
  all_goals simp

/-! ### The constant tables -/

/-- The primes below 312, in order. -/
def primeTable : List Nat :=
  [2, 3, 5, 7, 11, 13, 17, 19, 23, 29, 31, 37, 41, 43, 47, 53, 59, 61, 67, 71, 73, 79, 83, 89, 97,
    101, 103, 107, 109, 113, 127, 131, 137, 139, 149, 151, 157, 163, 167, 173, 179, 181, 191, 193,
    197, 199, 211, 223, 227, 229, 233, 239, 241, 251, 257, 263, 269, 271, 277, 281, 283, 293, 307,
    311]

/-- Trial division by 2 .. 18 decides primality below 19^2. -/
theorem prime_iff_trial_division {n : Nat} (h : n < 19 ^ 2) :
    n.Prime ↔ 2 ≤ n ∧ ∀ m < 19, 2 ≤ m → m ∣ n → m = n := by
  constructor
  · intro hp
    refine ⟨hp.two_le, fun m _ hm hd => ?_⟩
    exact (hp.eq_one_or_self_of_dvd m hd).resolve_left (by omega)
  · rintro ⟨h2, hdiv⟩
    by_contra hp
    have hsq : n.minFac ^ 2 ≤ n := Nat.minFac_sq_le_self (by omega) hp
    have hlt : n.minFac < 19 := lt_of_pow_lt_pow_left' 2 (hsq.trans_lt h)
    have hmin : n.minFac.Prime := Nat.minFac_prime (by omega)
    have hself : n.minFac = n := hdiv _ hlt hmin.two_le n.minFac_dvd
    exact hp (hself ▸ hmin)

theorem primes_below_312 : (List.range 312).filter Nat.Prime = primeTable := by
  have htrial : (List.range 312).filter Nat.Prime = (List.range 312).filter
      (fun n => 2 ≤ n ∧ ∀ m < 19, 2 ≤ m → m ∣ n → m = n) :=
    List.filter_congr fun n hn =>
      decide_eq_decide.2 (prime_iff_trial_division ((List.mem_range.1 hn).trans (by decide)))
  rw [htrial]
  decide +kernel

/-- Entry k of the numbers below n that satisfy p, in order, is the k-th number that satisfies p. -/
theorem nth_of_filter_range_getElem? {p : Nat → Prop} [DecidablePred p] {n k x : Nat}
    (h : ((List.range n).filter p)[k]? = some x) : Nat.nth p k = x := by
  induction n with
  | zero => simp at h
  | succ n ih =>
    have hlength : ((List.range n).filter p).length = Nat.count p n :=
      List.countP_eq_length_filter.symm
    rw [List.range_succ, List.filter_append] at h
    rcases Nat.lt_or_ge k ((List.range n).filter p).length with hk | hk
    · exact ih (by rwa [List.getElem?_append_left hk] at h)
    · rw [List.getElem?_append_right hk] at h
      by_cases hpn : p n
      · obtain ⟨hkn, rfl⟩ : k ≤ ((List.range n).filter p).length ∧ n = x := by
          simpa [hpn, List.getElem?_singleton, Nat.sub_eq_zero_iff_le] using h
        obtain rfl : k = Nat.count p n := by omega
        exact Nat.nth_count hpn
      · simp [hpn] at h

theorem nth_prime_eq_primeTable {t : Nat} (ht : t < 64) :
    Nat.nth Nat.Prime t = primeTable.getD t 0 := by
  apply nth_of_filter_range_getElem? (n := 312)
  rw [primes_below_312, List.getD_eq_getElem?_getD, List.getElem?_eq_getElem ht, Option.getD_some]

/-- The word w is the first 32 bits of the fractional part of the e-th root of p, whose integer
part is a. -/
abbrev IsRootFraction (e p a : Nat) (w : Word) : Prop :=
  (a * 2 ^ 32 + w.toNat) ^ e ≤ p * 2 ^ (32 * e) ∧
    p * 2 ^ (32 * e) < (a * 2 ^ 32 + w.toNat + 1) ^ e

theorem kConst_isRootFraction : ∀ t < 64, ∃ a < 7,
    IsRootFraction 3 (primeTable.getD t 0) a (kConst t) := by
  decide +kernel

theorem iv_isRootFraction : ∀ i : Fin 8, ∃ a < 5,
    IsRootFraction 2 (primeTable.getD i.val 0) a (iv.get i) := by
  decide +kernel

/-- Settles O39: the first 64 primes are those of `primeTable`, and each constant is then checked
against the root of its prime. -/
theorem constantsAreRootsOfThePrimes : Obligations.ConstantsAreRootsOfThePrimes := by
  refine ⟨fun t ht => ?k, fun i => ?iv⟩
  case k =>
    obtain ⟨a, -, ha⟩ := kConst_isRootFraction t ht
    rw [nth_prime_eq_primeTable ht]
    exact ⟨a, ha⟩
  case iv =>
    obtain ⟨a, -, ha⟩ := iv_isRootFraction i
    rw [nth_prime_eq_primeTable (i.isLt.trans (by decide))]
    exact ⟨a, ha⟩

end Sys2Proof.Machine

namespace Sys2Proof.Machine

/-! ### How far a run has come -/

/-- MSG as a function depends on the buffer and the draw alone. -/
theorem State.msgByte_fun_congr {s t : State} (hmsg : t.msg = s.msg) (hdraw : t.draw = s.draw) :
    t.msgByte = s.msgByte :=
  funext (State.msgByte_congr hmsg hdraw)

/-- The HashState before a block depends on LEN and MSG alone. -/
theorem State.hashBefore_congr {s t : State} (hlen : t.len = s.len) (hmsg : t.msg = s.msg)
    (hdraw : t.draw = s.draw) : t.hashBefore = s.hashBefore := by
  funext n
  rw [State.hashBefore, State.hashBefore, State.msgByte_fun_congr hmsg hdraw, hlen]

/-- The schedule of the block depends on LEN, MSG and j alone. -/
theorem State.scheduleAt_congr {s t : State} (hlen : t.len = s.len) (hj : t.j = s.j)
    (hmsg : t.msg = s.msg) (hdraw : t.draw = s.draw) : t.scheduleAt = s.scheduleAt := by
  funext n
  rw [State.scheduleAt, State.scheduleAt, State.msgByte_fun_congr hmsg hdraw, hlen,
    hj]

/-- The digest of the message is the HashState after its last block. -/
theorem State.hashBefore_blockCount (s : State) :
    s.hashBefore (blockCount s.len.toNat) = digestWords s.msgByte s.len.toNat := rfl

/-- RunProgress depends on the place in the run, the datapath, LEN and MSG alone. -/
theorem State.RunProgress.congr {s t : State} (hs : s.RunProgress) (hphase : t.phase = s.phase)
    (ht : t.t = s.t) (hj : t.j = s.j) (hhs : t.hs = s.hs) (hv : t.v = s.v) (hw : t.w = s.w)
    (hlen : t.len = s.len) (hmsg : t.msg = s.msg) (hdraw : t.draw = s.draw) :
    t.RunProgress := by
  simpa only [State.RunProgress, State.hashBefore_congr hlen hmsg hdraw,
    State.scheduleAt_congr hlen hj hmsg hdraw, State.msgByte_fun_congr hmsg hdraw, hphase, ht, hj,
    hhs, hv, hw, hlen] using hs

theorem State.RunProgress.of_idle {s : State} (hp : s.phase = .idle) : s.RunProgress := by
  rw [State.RunProgress, hp]
  trivial

theorem State.runProgress_load {s : State} (hp : s.phase = .load) :
    s.RunProgress ↔ s.hs = s.hashBefore s.j := by
  rw [State.RunProgress, hp]

theorem State.runProgress_expand {s : State} (hp : s.phase = .expand) :
    s.RunProgress ↔ s.hs = s.hashBefore s.j ∧ s.v = s.hs ∧
      ∀ i : Fin 64, i.val < s.t.val → s.w.get i = s.scheduleAt i.val := by
  rw [State.RunProgress, hp]

theorem State.runProgress_round {s : State} (hp : s.phase = .round) :
    s.RunProgress ↔ s.hs = s.hashBefore s.j ∧ s.v = roundsUpTo s.hs s.scheduleAt s.t.val ∧
      ∀ i : Fin 64, s.w.get i = s.scheduleAt i.val := by
  rw [State.RunProgress, hp]

theorem State.runProgress_accum {s : State} (hp : s.phase = .accum) :
    s.RunProgress ↔ s.hs = s.hashBefore s.j ∧ s.v = roundsUpTo s.hs s.scheduleAt 64 := by
  rw [State.RunProgress, hp]

theorem State.runProgress_final {s : State} (hp : s.phase = .final) :
    s.RunProgress ↔ s.hs = digestWords s.msgByte s.len.toNat := by
  rw [State.RunProgress, hp]

/-! ### Host operations and the progress of a run -/

/-- An accepted START begins at the HashState before block 0, which is IV (R97). -/
theorem State.RunProgress.startRun {s : State} (hs : s.RunProgress) : s.startRun.RunProgress := by
  rcases s.startRun_cases with ⟨-, h⟩ | ⟨hp, -, h⟩ | ⟨-, -, h⟩ <;> rw [h]
  · exact hs.congr rfl rfl rfl rfl rfl rfl rfl rfl rfl
  · exact .of_idle hp
  · exact (State.runProgress_load rfl).2 rfl

theorem State.RunProgress.writeLen {s : State} (hs : s.RunProgress) (d : Word) :
    (s.writeLen d).RunProgress := by
  rcases s.writeLen_cases d with ⟨-, h⟩ | ⟨hp, h⟩ <;> rw [h]
  · exact hs.congr rfl rfl rfl rfl rfl rfl rfl rfl rfl
  · exact .of_idle hp

theorem State.RunProgress.writeWindow {s : State} (hs : s.RunProgress) (i : BitVec 29)
    (d : Word) : (s.writeWindow i d).RunProgress := by
  rcases s.writeWindow_cases i d with ⟨-, h⟩ | ⟨-, -, h⟩ | ⟨-, hp, h⟩ <;> rw [h]
  · exact hs
  · exact hs.congr rfl rfl rfl rfl rfl rfl rfl rfl rfl
  · exact .of_idle hp

theorem hostOp_keeps_runProgress {i : Instr} (hi : selectingPhase i = none) {s t : State}
    (hs : s.RunProgress) (h : exec i s = .next t) : t.RunProgress := by
  rcases hostOp_next hi h with
    ⟨d, rfl⟩ | rfl | ⟨d, -, rfl⟩ | ⟨d, -, rfl⟩ | ⟨d, -, rfl⟩ | ⟨n, d, -, rfl⟩
  · exact hs.congr rfl rfl rfl rfl rfl rfl rfl rfl rfl
  · exact hs.congr rfl rfl rfl rfl rfl rfl rfl rfl rfl
  · exact .of_idle rfl
  · exact hs.startRun.congr rfl rfl rfl rfl rfl rfl rfl rfl rfl
  · exact (hs.writeLen d).congr rfl rfl rfl rfl rfl rfl rfl rfl rfl
  · exact (hs.writeWindow n d).congr rfl rfl rfl rfl rfl rfl rfl rfl rfl

/-! ### Sequencer steps and the progress of a run -/

/-- One block more: R91 in terms of the state. -/
theorem State.hashBefore_succ (s : State) :
    s.hashBefore (s.j + 1) =
      addWords (s.hashBefore s.j) (roundsUpTo (s.hashBefore s.j) s.scheduleAt 64) := rfl

/-- Over a schedule that is right below t, EXPAND computes w[t] (R81). -/
theorem expandWord_eq_scheduleWord {w : Schedule} {b : Nat → Word} {t : Fin 64} (ht : 16 ≤ t.val)
    (h : ∀ i : Fin 64, i.val < t.val → w.get i = scheduleWord b i.val) :
    expandWord w t = scheduleWord b t.val := by
  have hback : ∀ n : Fin 64, 0 < n.val → n.val ≤ 16 →
      w.get (t - n) = scheduleWord b (t.val - n.val) := by
    intro n hpos hle
    rw [← index_sub (hle.trans ht)]
    refine h _ ?_
    rw [index_sub (hle.trans ht)]
    omega
  rw [scheduleWord_high b ht, expandWord, hback 2 (by decide) (by decide),
    hback 7 (by decide) (by decide), hback 15 (by decide) (by decide),
    hback 16 (by decide) (by decide)]
  rfl

/-- One EXPAND makes a schedule that is right below t right below t + 1. -/
theorem expand_extends_schedule {w : Schedule} {b : Nat → Word} {t : Fin 64} (ht : 16 ≤ t.val)
    (h : ∀ i : Fin 64, i.val < t.val → w.get i = scheduleWord b i.val) (i : Fin 64)
    (hi : i.val < t.val + 1) :
    (w.set t (expandWord w t)).get i = scheduleWord b i.val := by
  rw [schedule_get_set]
  split
  · subst i; exact expandWord_eq_scheduleWord ht h
  · exact h i (by omega)

theorem State.RunProgress.afterLoad {s : State} (hp : s.phase = .load) (hs : s.RunProgress) :
    s.afterLoad.RunProgress := by
  have hhs : s.hs = s.hashBefore s.j := (State.runProgress_load hp).1 hs
  refine (State.runProgress_expand rfl).2 ⟨hhs, rfl, fun i hi => ?_⟩
  exact (s.loadedSchedule_low i hi).trans (scheduleWord_low _ hi).symm

theorem State.RunProgress.afterExpand {s : State} (hp : s.phase = .expand) (h16 : 16 ≤ s.t.val)
    (hs : s.RunProgress) : s.afterExpand.RunProgress := by
  obtain ⟨hhs, hv, hw⟩ := (State.runProgress_expand hp).1 hs
  have hhash : s.afterExpand.hashBefore = s.hashBefore :=
    State.hashBefore_congr (by simp) (by simp) (by simp)
  have hsched : s.afterExpand.scheduleAt = s.scheduleAt :=
    State.scheduleAt_congr (by simp) (by simp) (by simp) (by simp)
  have hnext := expand_extends_schedule h16 hw
  rcases index_cases s.t with h63 | hlt
  · obtain ⟨ht, hq⟩ := State.afterExpand_last h63
    rw [State.runProgress_round hq, hhash, hsched, ht]
    refine ⟨by simpa using hhs, by simpa [roundsUpTo] using hv, fun i => ?_⟩
    rw [State.afterExpand_w]
    exact hnext i (by rw [h63]; exact i.isLt)
  · obtain ⟨ht, hq⟩ := State.afterExpand_next hlt
    rw [State.runProgress_expand (hq.trans hp), hhash, hsched, ht]
    refine ⟨by simpa using hhs, by simpa using hv, ?_⟩
    rw [State.afterExpand_w]
    exact hnext

theorem State.RunProgress.afterRound {s : State} (hp : s.phase = .round) (hs : s.RunProgress) :
    s.afterRound.RunProgress := by
  obtain ⟨hhs, hv, hw⟩ := (State.runProgress_round hp).1 hs
  have hhash : s.afterRound.hashBefore = s.hashBefore :=
    State.hashBefore_congr (by simp) (by simp) (by simp)
  have hsched : s.afterRound.scheduleAt = s.scheduleAt :=
    State.scheduleAt_congr (by simp) (by simp) (by simp) (by simp)
  have hnext : s.afterRound.v = roundsUpTo s.hs s.scheduleAt (s.t.val + 1) := by
    rw [State.afterRound_v, hv, hw, roundsUpTo]
  rcases index_cases s.t with h63 | hlt
  · obtain ⟨-, hq⟩ := State.afterRound_last h63
    rw [State.runProgress_accum hq, hhash, hsched, hnext, h63]
    exact ⟨by simpa using hhs, by simp⟩
  · obtain ⟨ht, hq⟩ := State.afterRound_next hlt
    rw [State.runProgress_round (hq.trans hp), hhash, hsched, hnext, ht]
    exact ⟨by simpa using hhs, by simp, by simpa using hw⟩

/-- STEP_ACCUM ends the compression of block j, and at the last block the run's digest is there. -/
theorem State.RunProgress.afterAccum {s : State} (hp : s.phase = .accum)
    (hj : s.j < blockCount s.len.toNat) (hs : s.RunProgress) : s.afterAccum.RunProgress := by
  obtain ⟨hhs, hv⟩ := (State.runProgress_accum hp).1 hs
  have hnext : s.afterAccum.hs = s.hashBefore (s.j + 1) := by
    rw [State.afterAccum_hs, hv, State.hashBefore_succ, hhs]
  have hhash : s.afterAccum.hashBefore = s.hashBefore :=
    State.hashBefore_congr (by simp) (by simp) (by simp)
  rcases Nat.lt_or_ge (s.j + 1) (blockCount s.len.toNat) with hmore | hend
  · obtain ⟨hj', hq⟩ := State.afterAccum_more hmore
    rw [State.runProgress_load hq, hhash, hj', hnext]
  · obtain ⟨-, hq⟩ := State.afterAccum_end hend
    have hlast : s.j + 1 = blockCount s.len.toNat := by omega
    rw [State.runProgress_final hq, ← State.hashBefore_blockCount, hhash, hnext, hlast,
      State.afterAccum_len]

theorem coreTurn_keeps_runProgress {s t : State} (hshape : s.RunShape) (hs : s.RunProgress)
    (h : coreTurn s = .next t) : t.RunProgress := by
  rcases coreTurn_next h with
    ⟨-, rfl⟩ | ⟨hp, rfl⟩ | ⟨hp, rfl⟩ | ⟨hp, rfl⟩ | ⟨hp, rfl⟩ | ⟨-, rfl⟩
  · exact hs
  · exact hs.afterLoad hp
  · exact hs.afterExpand hp (hshape.expandFrom hp)
  · exact hs.afterRound hp
  · exact hs.afterAccum hp (hshape.blockInRun (by simp [hp]))
  · exact .of_idle rfl

theorem takeTurn_keeps_runProgress (u : Turn) (s t : State) (hshape : s.RunShape)
    (hs : s.RunProgress) (h : takeTurn u s = .next t) : t.RunProgress := by
  cases u with
  | access a => exact hostOp_keeps_runProgress (selectingPhase_decodeAccess a) hs h
  | core => exact coreTurn_keeps_runProgress hshape hs h
  | reset => obtain rfl := Host.Outcome.next.inj h; exact .of_idle rfl

/-- Settles O49: the shape and the progress of a run are kept together, since EXPAND needs 16 <= t
and the last ACCUM needs j < N(LEN). -/
theorem stepKeepsTheRunProgress : Obligations.StepKeepsTheRunProgress := by
  intro s t hshape hs h
  have hboth : t.RunShape ∧ t.RunProgress := by
    refine step_keeps (P := fun s => s.RunShape ∧ s.RunProgress) ?turns ?turn ⟨hshape, hs⟩ h
    case turns =>
      exact fun _ _ hP => ⟨hP.1.congr rfl rfl rfl rfl rfl rfl,
        hP.2.congr rfl rfl rfl rfl rfl rfl rfl rfl rfl⟩
    case turn =>
      exact fun u s t hP h => ⟨takeTurn_keeps_runShape u s t hP.1 h,
        takeTurn_keeps_runProgress u s t hP.1 hP.2 h⟩
  exact hboth.2

/-! ### The bytes at or past LEN -/

/-- The state with another message buffer (R35; its draw is the model's form, log 2). -/
def State.withBuffer (s : State) (m : Memory) (n : Nat) : State :=
  { s with msg := m, draw := n }

theorem sameBelowLen_iff {s s' : State} :
    SameBelowLen s s' ↔ ∃ m n, s' = s.withBuffer m n ∧
      ∀ a, a < s.len.toNat → s.msgByte a = (s.withBuffer m n).msgByte a := by
  constructor
  · rintro ⟨hsame, hbytes⟩
    refine ⟨s'.msg, s'.draw, hsame.symm, fun a ha => ?_⟩
    rw [hbytes a ha]
    rfl
  · rintro ⟨m, n, rfl, hbytes⟩
    exact ⟨rfl, hbytes⟩

theorem SameBelowLen.digest_eq {s s' : State} (hs : SameBelowLen s s') : s'.digest = s.digest :=
  (congrArg State.digest hs.1).symm

/-! ### Sequencer steps over another buffer -/

/-- STEP_LOAD is the one step that reads MSG, through the padder, which reads it below LEN. -/
theorem State.afterLoad_withBuffer {s : State} {m : Memory} {n : Nat}
    (h : ∀ a, a < s.len.toNat → s.msgByte a = (s.withBuffer m n).msgByte a) :
    (s.withBuffer m n).afterLoad = s.afterLoad.withBuffer m n := by
  have hload : (s.withBuffer m n).loadedSchedule = s.loadedSchedule := by
    simp only [State.loadedSchedule, blockWord_congr h]
    rfl
  simp only [State.afterLoad, hload]
  rfl

theorem State.advance_withBuffer (s : State) (m : Memory) (n : Nat) (p : Phase) :
    (s.withBuffer m n).advance p = (s.advance p).withBuffer m n := by
  simp only [State.advance]
  rw [apply_ite (State.withBuffer · m n)]
  rfl

theorem State.afterExpand_withBuffer (s : State) (m : Memory) (n : Nat) :
    (s.withBuffer m n).afterExpand = s.afterExpand.withBuffer m n := by
  rw [State.afterExpand, State.afterExpand, ← State.advance_withBuffer]
  rfl

theorem State.afterRound_withBuffer (s : State) (m : Memory) (n : Nat) :
    (s.withBuffer m n).afterRound = s.afterRound.withBuffer m n := by
  rw [State.afterRound, State.afterRound, ← State.advance_withBuffer]
  rfl

theorem State.afterAccum_withBuffer (s : State) (m : Memory) (n : Nat) :
    (s.withBuffer m n).afterAccum = s.afterAccum.withBuffer m n := by
  simp only [State.afterAccum]
  rw [apply_ite (State.withBuffer · m n)]
  rfl

/-- A turn of the core takes the same step over a buffer that agrees below LEN. -/
theorem coreTurn_withBuffer {s t : State} {m : Memory} {n : Nat}
    (hbytes : ∀ a, a < s.len.toNat → s.msgByte a = (s.withBuffer m n).msgByte a)
    (h : coreTurn s = .next t) : coreTurn (s.withBuffer m n) = .next (t.withBuffer m n) := by
  rcases coreTurn_next h with
    ⟨hp, rfl⟩ | ⟨hp, rfl⟩ | ⟨hp, rfl⟩ | ⟨hp, rfl⟩ | ⟨hp, rfl⟩ | ⟨hp, rfl⟩
  · exact coreTurn_idle (s := t.withBuffer m n) hp
  · rw [← State.afterLoad_withBuffer hbytes]
    exact coreTurn_load (s := s.withBuffer m n) hp
  · rw [← State.afterExpand_withBuffer]
    exact coreTurn_expand (s := s.withBuffer m n) hp
  · rw [← State.afterRound_withBuffer]
    exact coreTurn_round (s := s.withBuffer m n) hp
  · rw [← State.afterAccum_withBuffer]
    exact coreTurn_accum (s := s.withBuffer m n) hp
  · exact coreTurn_final (s := s.withBuffer m n) hp

/-- The core writes neither LEN nor MSG (R54). -/
theorem coreTurn_keeps_message {s t : State} (h : coreTurn s = .next t) :
    t.len = s.len ∧ t.msg = s.msg ∧ t.draw = s.draw := by
  rcases coreTurn_next h with c | c | c | c | c | c <;> obtain ⟨-, rfl⟩ := c <;> simp

theorem coreTurn_keeps_sameBelowLen {s s' t : State} (hs : SameBelowLen s s')
    (h : coreTurn s = .next t) : ∃ t', coreTurn s' = .next t' ∧ SameBelowLen t t' := by
  obtain ⟨m, n, rfl, hbytes⟩ := sameBelowLen_iff.1 hs
  obtain ⟨hlen, hmsg, hdraw⟩ := coreTurn_keeps_message h
  refine ⟨_, coreTurn_withBuffer hbytes h, sameBelowLen_iff.2 ⟨m, n, rfl, fun a ha => ?_⟩⟩
  rw [hlen] at ha
  calc t.msgByte a = s.msgByte a := State.msgByte_congr hmsg hdraw a
    _ = (s.withBuffer m n).msgByte a := hbytes a ha
    _ = (t.withBuffer m n).msgByte a := State.msgByte_congr rfl rfl a

/-- Settles O56, by induction on the number of core steps: each keeps the two states the same below
LEN, and DIGEST is no part of the buffer. -/
theorem bytesPastLenNeverReachARun : Obligations.BytesPastLenNeverReachARun := by
  intro n
  induction n with
  | zero =>
    intro s s' t hs h
    obtain rfl := Host.Outcome.next.inj h
    exact ⟨s', rfl, hs, hs.digest_eq⟩
  | succ n ih =>
    intro s s' t hs h
    obtain ⟨u, hu⟩ := takeTurn_next .core s
    obtain ⟨u', hu', hsame⟩ := coreTurn_keeps_sameBelowLen hs hu
    rw [List.replicate_succ, takeTurns_cons hu] at h
    rw [List.replicate_succ, takeTurns_cons (u := .core) hu']
    exact ih u u' t hsame h

/-! ### The encoding of a decoded access -/

theorem windowOff_offIndex {off : Word} (h : 2 ^ 29 ≤ off.toNat / 4) :
    windowOff (offIndex (alignOff off)) = alignOff off := by
  have := off.isLt
  apply BitVec.eq_of_toNat_eq
  rw [windowOff_toNat, offIndex_alignOff, offIndex_toNat, alignOff_toNat]
  omega

theorem lowOff_offIndex {off : Word} (h : off.toNat / 4 < 2 ^ 29) :
    lowOff (offIndex (alignOff off)) = alignOff off := by
  apply BitVec.eq_of_toNat_eq
  rw [lowOff_toNat, offIndex_alignOff, offIndex_toNat, alignOff_toNat, Nat.mod_eq_of_lt h,
    Nat.mul_comm]

theorem digestOff_offDigest {off : Word} (h8 : 8 ≤ off.toNat / 4) (h16 : off.toNat / 4 < 16) :
    digestOff (offDigest (alignOff off)) = alignOff off := by
  apply BitVec.eq_of_toNat_eq
  rw [digestOff_toNat, offDigest_alignOff, offDigest_val, alignOff_toNat]
  omega

theorem reservedIndex_offIndex {off : Word} (hlt : off.toNat / 4 < 2 ^ 29)
    (h : (4 ≤ off.toNat / 4 ∧ off.toNat / 4 < 8) ∨ 16 ≤ off.toNat / 4) :
    reservedIndex (offIndex (alignOff off)) = true := by
  rw [reservedIndex, offIndex_alignOff, offIndex_toNat, Nat.mod_eq_of_lt hlt]
  simpa using h

/-- The three cases of R56 by the word number off / 4, with the operand as the decoder takes it. -/
theorem regionOf_cases (off : Word) :
    (2 ^ 29 ≤ off.toNat / 4 ∧ regionOf off = .window (offIndex (alignOff off))) ∨
    (∃ r : BitVec 4, off.toNat / 4 = r.toNat ∧ regionOf off = .register r) ∨
    (16 ≤ off.toNat / 4 ∧ off.toNat / 4 < 2 ^ 29 ∧
      regionOf off = .reserved (offIndex (alignOff off))) := by
  have hhigh : offHigh (alignOff off) = 0#26 ↔ off.toNat / 4 < 16 := by
    rw [offHigh_alignOff, ← BitVec.toNat_inj, offHigh_toNat, BitVec.toNat_ofNat]
    omega
  have hwin : offWindow (alignOff off) = true ↔ 2 ^ 29 ≤ off.toNat / 4 := by
    rw [offWindow_alignOff, offWindow_iff]
  unfold regionOf
  split
  case isTrue h => exact .inl ⟨hwin.1 h, rfl⟩
  case isFalse h =>
    have hlt : off.toNat / 4 < 2 ^ 29 := Nat.lt_of_not_le (mt hwin.2 h)
    split
    case isTrue h16 =>
      refine .inr (.inl ⟨_, ?_, rfl⟩)
      rw [offRegister_alignOff, offRegister_toNat, Nat.mod_eq_of_lt (hhigh.1 h16)]
    case isFalse h16 => exact .inr (.inr ⟨Nat.le_of_not_lt (mt hhigh.2 h16), hlt, rfl⟩)

/-- The aligned offset of register r is 4r (R57). -/
theorem alignOff_of_register {off : Word} {r : BitVec 4} (h : off.toNat / 4 = r.toNat) :
    alignOff off = BitVec.ofNat 32 (4 * r.toNat) := by
  apply BitVec.eq_of_toNat_eq
  rw [alignOff_toNat, BitVec.toNat_ofNat]
  omega

/-- A register but the first four is reserved, or one of DIGEST (R57). -/
theorem register_cases (r : BitVec 4) :
    r = 0#4 ∨ r = 1#4 ∨ r = 2#4 ∨ r = 3#4 ∨ (4 ≤ r.toNat ∧ r.toNat < 8) ∨ 8 ≤ r.toNat := by
  revert r; decide

theorem decodeRegister_reserved {r : BitVec 4} (h4 : 4 ≤ r.toNat) (h8 : r.toNat < 8)
    (off d : Word) :
    decodeRegisterRead r off = .rdRsvd (offIndex (alignOff off)) ∧
    decodeRegisterWrite r off d = .wrRsvd (offIndex (alignOff off)) d := by
  have hne : ∀ n : BitVec 4, n.toNat < 4 → r ≠ n := by
    rintro n hn rfl
    omega
  simp [decodeRegisterRead, decodeRegisterWrite, hne 0#4, hne 1#4, hne 2#4, hne 3#4, h8]

theorem decodeRegister_digest {r : BitVec 4} (h8 : 8 ≤ r.toNat) (off d : Word) :
    decodeRegisterRead r off = .rdDigest (offDigest (alignOff off)) ∧
    decodeRegisterWrite r off d = .wrDigest (offDigest (alignOff off)) d := by
  have hne : ∀ n : BitVec 4, n.toNat < 8 → r ≠ n := by
    rintro n hn rfl
    omega
  simp [decodeRegisterRead, decodeRegisterWrite, hne 0#4, hne 1#4, hne 2#4, hne 3#4,
    Nat.not_lt.2 h8]

theorem encode_decodeCtrlWrite (d : Word) :
    encode (decodeCtrlWrite d) = .access (.write 0x00#32 d) := by
  unfold decodeCtrlWrite
  (repeat' split) <;> rfl

theorem decodeCtrlWrite_wellFormed (d : Word) : (decodeCtrlWrite d).wellFormed = true := by
  unfold decodeCtrlWrite
  (repeat' split) <;> simp_all [Instr.wellFormed]

/-- What decoding and encoding give back of an access: its aligned form, from a well-formed
instruction. -/
def DecodesFaithfully (a : Access) : Prop :=
  encode (decodeAccess a) = .access a.aligned ∧ (decodeAccess a).wellFormed = true

/-- An access to a register, by the six ranges of R57. -/
theorem decodesFaithfully_register {off : Word} {r : BitVec 4} (hr : off.toNat / 4 = r.toNat)
    (hreg : regionOf off = .register r) (d : Word) :
    DecodesFaithfully (.read off) ∧ DecodesFaithfully (.write off d) := by
  have hoff := alignOff_of_register hr
  have hlt := r.isLt
  simp only [DecodesFaithfully, decodeAccess, hreg, Access.aligned]
  rcases register_cases r with rfl | rfl | rfl | rfl | ⟨h4, h8⟩ | h8
  · rw [hoff]
    exact ⟨⟨rfl, rfl⟩, encode_decodeCtrlWrite d, decodeCtrlWrite_wellFormed d⟩
  · rw [hoff]; exact ⟨⟨rfl, rfl⟩, rfl, rfl⟩
  · rw [hoff]; exact ⟨⟨rfl, rfl⟩, rfl, rfl⟩
  · rw [hoff]; exact ⟨⟨rfl, rfl⟩, rfl, rfl⟩
  · have hres := reservedIndex_offIndex (off := off) (by omega) (.inl (by omega))
    have hlow := lowOff_offIndex (off := off) (by omega)
    obtain ⟨hread, hwrite⟩ := decodeRegister_reserved h4 h8 off d
    simp [hread, hwrite, encode, Instr.wellFormed, hres, hlow]
  · have hdig := digestOff_offDigest (off := off) (by omega) (by omega)
    obtain ⟨hread, hwrite⟩ := decodeRegister_digest h8 off d
    simp [hread, hwrite, encode, Instr.wellFormed, hdig]

theorem decodesFaithfully_offset (off d : Word) :
    DecodesFaithfully (.read off) ∧ DecodesFaithfully (.write off d) := by
  rcases regionOf_cases off with ⟨hw, h⟩ | ⟨r, hr, h⟩ | ⟨h16, hlt, h⟩
  · simp [DecodesFaithfully, decodeAccess, h, encode, Access.aligned, Instr.wellFormed,
      windowOff_offIndex hw]
  · exact decodesFaithfully_register hr h d
  · simp [DecodesFaithfully, decodeAccess, h, encode, Access.aligned, Instr.wellFormed,
      lowOff_offIndex hlt, reservedIndex_offIndex hlt (.inr h16)]

theorem decodesFaithfully (a : Access) : DecodesFaithfully a := by
  cases a with
  | read off => exact (decodesFaithfully_offset off 0#32).1
  | write off d => exact (decodesFaithfully_offset off d).2

/-! ### The encoding of a decoded phase code -/

theorem codeOfPhase_of_phaseOfCode {c : BitVec 3} {p : Phase} (h : phaseOfCode c = some p) :
    codeOfPhase p = c := by
  unfold phaseOfCode at h
  (repeat' split at h) <;> cases h <;> simp_all [codeOfPhase]

/-- The step that a phase selects has its code, and no operand. -/
theorem stepOfPhase_ok {p : Phase} {i : Instr} (h : stepOfPhase p = .ok i) :
    encode i = .phase (codeOfPhase p) ∧ i.wellFormed = true := by
  cases p <;> cases h <;> exact ⟨rfl, rfl⟩

theorem decodePhase_ok {c : BitVec 3} {i : Instr} (h : decodePhase c = .ok i) :
    encode i = .phase c ∧ i.wellFormed = true := by
  unfold decodePhase at h
  split at h
  case h_1 p hp =>
    rw [← codeOfPhase_of_phaseOfCode hp]
    exact stepOfPhase_ok h
  case h_2 => cases h

/-- Settles O2: an access decodes faithfully by the cases of its region, a phase code by
`decodePhase_ok`. -/
theorem encodingADecodedCodeClearsOnlyIgnoredBits :
    Obligations.EncodingADecodedCodeClearsOnlyIgnoredBits := by
  refine ⟨fun a => (decodesFaithfully a).1, fun c i h => (decodePhase_ok h).1, fun c i h => ?_⟩
  cases c with
  | access a => cases h; exact (decodesFaithfully a).2
  | phase c => exact (decodePhase_ok h).2

/-- Settles O4: the decoder does not see bits 1:0 (`decodeAccess_aligned`), and the encoder gives
back every other bit. -/
theorem offsetBitsOneAndZeroAreIgnored : Obligations.OffsetBitsOneAndZeroAreIgnored := by
  refine ⟨fun off s => ?_, fun off d s => ?_, fun off off' h => ?_⟩
  · exact congrArg (exec · s) (decodeAccess_aligned (.read off)).symm
  · exact congrArg (exec · s) (decodeAccess_aligned (.write off d)).symm
  · have hcode : Code.access (.read (alignOff off)) = .access (.read (alignOff off')) := by
      rw [← Access.aligned, ← Access.aligned, ← (decodesFaithfully (.read off)).1, h,
        (decodesFaithfully (.read off')).1]
    injection hcode with hread
    injection hread

/-! ### DIGEST -/

theorem decodeAccess_digestOff (k : Fin 8) : decodeAccess (.read (digestOff k)) = .rdDigest k := by
  revert k; decide

/-- Byte 4k + m of the words of a list, big-endian one after another, is lane m of word k. -/
theorem flatMap_bytesBE32_getElem? (l : List Word) {k m : Nat} (hm : m < 4) :
    (l.flatMap bytesBE32)[4 * k + m]? = l[k]?.map (lane · m) := by
  induction l generalizing k with
  | nil => simp
  | cons w l ih =>
    rw [List.flatMap_cons]
    cases k with
    | zero =>
      rw [List.getElem?_append_left (by simp [bytesBE32]; omega)]
      obtain rfl | rfl | rfl | rfl : m = 0 ∨ m = 1 ∨ m = 2 ∨ m = 3 := by omega
      all_goals rfl
    | succ k =>
      rw [List.getElem?_append_right (by simp [bytesBE32]; omega), List.getElem?_cons_succ, ← ih]
      congr 1
      simp [bytesBE32]
      omega

theorem assemble_getElem? (hs : Words8) (k : Fin 8) {m : Nat} (hm : m < 4) :
    (assemble hs)[4 * k.val + m]? = some (lane (hs.get k) m) := by
  rw [assemble, flatMap_bytesBE32_getElem? _ hm]
  simp [Vector.get_eq_getElem]

/-- Settles O15: the aligned offset is that of DIGEST k, and the assembled digest holds the lanes of
its words by `assemble_getElem?`. -/
theorem digestReadReturnsItsWord : Obligations.DigestReadReturnsItsWord := by
  intro s off k hoff
  have halign : alignOff off = digestOff k :=
    BitVec.eq_of_toNat_eq (hoff.trans (digestOff_toNat k).symm)
  refine ⟨?_, rfl, fun m hm => assemble_getElem? s.digest k hm⟩
  rw [decodeAccess_read_of_alignOff halign, decodeAccess_digestOff]

/-! ### The MSG window -/

theorem exec_rdMsg (s : State) (n : BitVec 29) :
    exec (.rdMsg n) s = .next (s.readReturns (s.windowWord n)) := rfl

theorem exec_wrMsg_idle {s : State} {i : BitVec 29} (hcap : 4 * i.toNat + 4 ≤ s.msgCap.bytes)
    (hp : s.phase = .idle) (d : Word) :
    exec (.wrMsg i d) s = .next (s.writeMsgWord i d).writeReturns := by
  rw [exec, execWrMsg, State.writeWindow_idle hcap hp]

@[simp] theorem State.windowWord_writeReturns (s : State) (n : BitVec 29) :
    s.writeReturns.windowWord n = s.windowWord n := rfl

theorem State.windowWord_writeMsgWord_same {s : State} {i : BitVec 29}
    (hcap : 4 * i.toNat + 4 ≤ s.msgCap.bytes) (d : Word) :
    (s.writeMsgWord i d).windowWord i = d := by
  rw [State.windowWord, if_pos ((State.inCapacity_iff (s.writeMsgWord i d) i).2 hcap),
    State.msgWord_writeMsgWord_same]

/-- Two window words have no byte in common. -/
theorem State.windowWord_writeMsgWord_ne (s : State) {i n : BitVec 29} (h : n ≠ i) (d : Word) :
    (s.writeMsgWord i d).windowWord n = s.windowWord n := by
  have hne : n.toNat ≠ i.toNat := fun he => h (BitVec.eq_of_toNat_eq he)
  have hword : (s.writeMsgWord i d).msgWord n = s.msgWord n :=
    State.msgWord_congr fun m hm => s.msgByte_writeMsgWord_ne i d _ (by omega)
  rw [State.windowWord, hword]
  rfl

/-- Settles O23: the write is stored, and a window word is read from its own four bytes. -/
theorem writtenWindowWordReadsBack : Obligations.WrittenWindowWordReadsBack := by
  intro s t i n d hp hcap h
  rw [exec_wrMsg_idle hcap hp] at h
  obtain rfl := Host.Outcome.next.inj h
  refine ⟨?same, fun hne => ⟨s.windowWord n, ?other, exec_rdMsg s n⟩⟩
  case same =>
    rw [exec_rdMsg, State.windowWord_writeReturns, State.windowWord_writeMsgWord_same hcap]
    rfl
  case other =>
    rw [exec_rdMsg, State.windowWord_writeReturns, s.windowWord_writeMsgWord_ne hne]
    rfl

/-! ### Reads -/

/-- The operations that a read of some offset selects (R57, R60, R62). -/
def isReadOp : Instr → Bool
  | .rdCtrl | .rdStatus | .rdLen | .rdMsgcap | .rdDigest _ | .rdMsg _ | .rdRsvd _ => true
  | _ => false

theorem decodeRegisterRead_isReadOp (r : BitVec 4) (off : Word) :
    isReadOp (decodeRegisterRead r off) = true := by
  unfold decodeRegisterRead
  (repeat' split) <;> rfl

theorem decodeAccess_isReadOp (off : Word) : isReadOp (decodeAccess (.read off)) = true := by
  simp only [decodeAccess]
  split
  · rfl
  · exact decodeRegisterRead_isReadOp _ off
  · rfl

/-- A read returns a word of the state, which does not depend on the word returned before. -/
theorem exec_of_isReadOp {i : Instr} (hi : isReadOp i = true) :
    ∃ value : State → Word, (∀ s, exec i s = .next (s.readReturns (value s))) ∧
      ∀ s d, value (s.readReturns d) = value s := by
  cases i
  case rdCtrl => exact ⟨fun _ => 0x00000000#32, fun _ => rfl, fun _ _ => rfl⟩
  case rdStatus => exact ⟨State.statusWord, fun _ => rfl, fun _ _ => rfl⟩
  case rdLen => exact ⟨State.len, fun _ => rfl, fun _ _ => rfl⟩
  case rdMsgcap => exact ⟨fun s => BitVec.ofNat 32 s.msgCap.bytes, fun _ => rfl, fun _ _ => rfl⟩
  case rdDigest k => exact ⟨fun s => s.digest.get k, fun _ => rfl, fun _ _ => rfl⟩
  case rdMsg n => exact ⟨fun s => s.windowWord n, fun _ => rfl, fun _ _ => rfl⟩
  case rdRsvd x => exact ⟨fun _ => 0x00000000#32, fun _ => rfl, fun _ _ => rfl⟩
  all_goals cases hi

/-- Settles O24: reading again reads the same value of a state that differs in `rdata` alone. -/
theorem readsChangeNoState : Obligations.ReadsChangeNoState := by
  intro s off
  obtain ⟨value, hexec, hsame⟩ := exec_of_isReadOp (decodeAccess_isReadOp off)
  refine ⟨value s, hexec s, ?_⟩
  calc takeTurn (.access (.read off)) (s.readReturns (value s))
      = .next ((s.readReturns (value s)).readReturns (value (s.readReturns (value s)))) :=
        hexec _
    _ = .next (s.readReturns (value s)) := by rw [hsame]; rfl

/-! ### What changes the buffer -/

/-- A host operation but a window write leaves the list of known bytes. -/
theorem hostOp_keeps_msg {i : Instr} (hi : selectingPhase i = none)
    (hwr : ∀ n d, i ≠ .wrMsg n d) {s t : State} (h : exec i s = .next t) : t.msg = s.msg := by
  rcases hostOp_next hi h with
    ⟨d, rfl⟩ | rfl | ⟨d, -, rfl⟩ | ⟨d, -, rfl⟩ | ⟨d, -, rfl⟩ | ⟨n, d, hd, -⟩
  · rfl
  · rfl
  · rfl
  · exact s.startRun_msg
  · exact s.writeLen_msg d
  · exact absurd hd (hwr n d)

theorem exec_keeps_msg {i : Instr} (hwr : ∀ n d, i ≠ .wrMsg n d) {s t : State}
    (h : exec i s = .next t) : t.msg = s.msg := by
  rcases hsel : selectingPhase i with _ | p
  · exact hostOp_keeps_msg hsel hwr h
  · obtain ⟨-, hcore⟩ := execStep_next hsel h
    exact (coreTurn_keeps_message hcore).2.1

/-- A window write, stored or not, leaves every byte but its own four. -/
theorem State.msgByte_writeWindow_ne (s : State) (n : BitVec 29) (d : Word) {a : Nat}
    (h : a < 4 * n.toNat ∨ 4 * n.toNat + 4 ≤ a) :
    (s.writeWindow n d).msgByte a = s.msgByte a := by
  rcases s.writeWindow_cases n d with ⟨-, hw⟩ | ⟨-, -, hw⟩ | ⟨-, -, hw⟩ <;> rw [hw]
  · exact State.msgByte_congr rfl rfl a
  · exact s.msgByte_writeMsgWord_ne n d a h

/-- Settles O30: no instruction writes the draw, and none but a window write the known bytes. -/
theorem onlyWindowWritesChangeTheBuffer : Obligations.OnlyWindowWritesChangeTheBuffer := by
  refine ⟨fun i s t hwr h a => ?_, fun n d s t h a ha => ?_⟩
  · obtain ⟨-, hdraw, -⟩ := exec_keeps_parameters h
    exact State.msgByte_congr (exec_keeps_msg hwr h) hdraw a
  · obtain rfl := Host.Outcome.next.inj h
    exact (State.msgByte_congr rfl rfl a).trans (s.msgByte_writeWindow_ne n d ha)

/-! ### The digest of a message -/

/-- The HashState after n blocks reads the message below L alone, through the words of its blocks. -/
theorem hashBlocks_congr {m m' : Nat → Byte} {L : Nat} (h : ∀ i, i < L → m i = m' i) (n : Nat) :
    hashBlocks m L n = hashBlocks m' L n := by
  induction n with
  | zero => rfl
  | succ n ih =>
    have hblock : blockWord m L n = blockWord m' L n := funext (blockWord_congr h n)
    rw [hashBlocks, hashBlocks, ih, hblock]

/-- Settles O45, by `hashBlocks_congr` at the last block. -/
theorem digestDependsOnTheMessageAlone : Obligations.DigestDependsOnTheMessageAlone :=
  fun _ _ L h => hashBlocks_congr h (blockCount L)

end Sys2Proof.Machine

namespace Sys2Proof.Machine

/-! ### The address map -/

/-- The accesses at the word number of register r (R57). -/
theorem decodeAccess_register {off : Word} {r : BitVec 4} (h : off.toNat / 4 = r.toNat) (d : Word) :
    decodeAccess (.read off) = decodeRegisterRead r off ∧
    decodeAccess (.write off d) = decodeRegisterWrite r off d := by
  have hlt := r.isLt
  have hreg : regionOf off = .register r := by
    rw [regionOf_eq, if_neg (by omega), if_pos (by omega), h, BitVec.ofNat_toNat,
      BitVec.setWidth_eq]
  simp only [decodeAccess, hreg, and_self]

/-- The operand of a reserved offset is its word number (R62). -/
theorem offIndex_alignOff_eq_ofNat (off : Word) :
    offIndex (alignOff off) = BitVec.ofNat 29 (off.toNat / 4) := by
  apply BitVec.eq_of_toNat_eq
  rw [offIndex_alignOff, offIndex_toNat, BitVec.toNat_ofNat]

/-- The reserved offsets among the registers (R57). -/
theorem decodeAccess_reservedRegister {off : Word} (h4 : 4 ≤ off.toNat / 4)
    (h7 : off.toNat / 4 ≤ 7) (d : Word) :
    decodeAccess (.read off) = .rdRsvd (BitVec.ofNat 29 (off.toNat / 4)) ∧
    decodeAccess (.write off d) = .wrRsvd (BitVec.ofNat 29 (off.toNat / 4)) d := by
  have hr : off.toNat / 4 = (BitVec.ofNat 4 (off.toNat / 4)).toNat := by
    rw [BitVec.toNat_ofNat]; omega
  obtain ⟨hread, hwrite⟩ := decodeAccess_register hr d
  rw [hread, hwrite, ← offIndex_alignOff_eq_ofNat]
  exact decodeRegister_reserved (by omega) (by omega) off d

/-- The offsets of DIGEST k (R57, R61). -/
theorem decodeAccess_digest {off : Word} {k : Fin 8} (h : off.toNat / 4 = 8 + k.val) (d : Word) :
    decodeAccess (.read off) = .rdDigest k ∧ decodeAccess (.write off d) = .wrDigest k d := by
  have hlt := k.isLt
  have hr : off.toNat / 4 = (BitVec.ofNat 4 (off.toNat / 4)).toNat := by
    rw [BitVec.toNat_ofNat]; omega
  have hk : offDigest (alignOff off) = k := by
    apply Fin.ext
    rw [offDigest_alignOff, offDigest_val]
    omega
  obtain ⟨hread, hwrite⟩ := decodeAccess_register hr d
  have hdigest := decodeRegister_digest (r := BitVec.ofNat 4 (off.toNat / 4)) (by omega) off d
  rw [hread, hwrite]
  rwa [hk] at hdigest

/-- The reserved offsets past the registers (R56). -/
theorem decodeAccess_reserved {off : Word} (h16 : 16 ≤ off.toNat / 4)
    (hlt : off.toNat / 4 < 2 ^ 29) (d : Word) :
    decodeAccess (.read off) = .rdRsvd (BitVec.ofNat 29 (off.toNat / 4)) ∧
    decodeAccess (.write off d) = .wrRsvd (BitVec.ofNat 29 (off.toNat / 4)) d := by
  have hreg : regionOf off = .reserved (BitVec.ofNat 29 (off.toNat / 4)) := by
    rw [regionOf_eq, if_neg (by omega), if_neg (by omega)]
  simp only [decodeAccess, hreg, and_self]

/-- The offsets of the MSG window (R56, R60). -/
theorem decodeAccess_window {off : Word} (h : 2 ^ 29 ≤ off.toNat / 4) (d : Word) :
    decodeAccess (.read off) = .rdMsg (BitVec.ofNat 29 (off.toNat / 4 - 2 ^ 29)) ∧
    decodeAccess (.write off d) = .wrMsg (BitVec.ofNat 29 (off.toNat / 4 - 2 ^ 29)) d := by
  have hreg : regionOf off = .window (BitVec.ofNat 29 (off.toNat / 4 - 2 ^ 29)) := by
    rw [regionOf_eq, if_pos h]
  simp only [decodeAccess, hreg, and_self]

/-! ### The write data of CTRL -/

theorem decodeCtrlWrite_clear {d : Word} (h1 : d.getLsbD 1 = true) :
    decodeCtrlWrite d = .wrCtrlClear d := by
  rw [decodeCtrlWrite, if_pos h1]

theorem decodeCtrlWrite_start {d : Word} (h1 : d.getLsbD 1 = false) (h0 : d.getLsbD 0 = true) :
    decodeCtrlWrite d = .wrCtrlStart d := by
  rw [decodeCtrlWrite, if_neg (ne_true_of_eq_false h1), if_pos h0]

theorem decodeCtrlWrite_nop {d : Word} (h1 : d.getLsbD 1 = false) (h0 : d.getLsbD 0 = false) :
    decodeCtrlWrite d = .wrCtrlNop d := by
  rw [decodeCtrlWrite, if_neg (ne_true_of_eq_false h1), if_neg (ne_true_of_eq_false h0)]

theorem word_getLsbD_eq_decide (d : Word) (i : Nat) :
    d.getLsbD i = decide (d.toNat / 2 ^ i % 2 = 1) :=
  Nat.testBit_eq_decide_div_mod_eq

/-- R58: the write at CTRL by its data as a number. -/
theorem decodeCtrlWrite_by_number (d : Word) :
    (d.toNat / 2 % 2 = 1 → decodeCtrlWrite d = .wrCtrlClear d) ∧
    (d.toNat % 4 = 1 → decodeCtrlWrite d = .wrCtrlStart d) ∧
    (d.toNat % 4 = 0 → decodeCtrlWrite d = .wrCtrlNop d) := by
  refine ⟨fun h => decodeCtrlWrite_clear ?_, fun h => decodeCtrlWrite_start ?_ ?_,
    fun h => decodeCtrlWrite_nop ?_ ?_⟩ <;>
    simp only [word_getLsbD_eq_decide, decide_eq_true_eq, decide_eq_false_iff_not] <;> omega

/-- Settles O3: the region by `regionOf_eq`, and in the register file the register by its number. -/
theorem offsetsDecodeByTheAddressMap : Obligations.OffsetsDecodeByTheAddressMap := by
  intro off d o rd wr
  have hreg : ∀ r : BitVec 4, o = r.toNat →
      rd = decodeRegisterRead r off ∧ wr = decodeRegisterWrite r off d :=
    fun r hr => decodeAccess_register hr d
  refine ⟨fun h => ?ctrl, hreg 1#4, hreg 2#4, hreg 3#4,
    fun h4 h7 => decodeAccess_reservedRegister h4 h7 d, fun k hk => decodeAccess_digest hk d,
    fun h16 hlt => decodeAccess_reserved h16 hlt d, fun h => decodeAccess_window h d⟩
  case ctrl =>
    obtain ⟨hread, hwrite⟩ := hreg 0#4 h
    rw [hwrite]
    exact ⟨hread, decodeCtrlWrite_by_number d⟩

/-! ### Decoding what the encoder writes -/

/-- A reserved row at the offset the encoder writes (R62). -/
theorem decodeAccess_lowOff {x : BitVec 29} (hx : reservedIndex x = true) (d : Word) :
    decodeAccess (.read (lowOff x)) = .rdRsvd x ∧
    decodeAccess (.write (lowOff x) d) = .wrRsvd x d := by
  have hword : (lowOff x).toNat / 4 = x.toNat := by rw [lowOff_toNat]; omega
  have hself : BitVec.ofNat 29 ((lowOff x).toNat / 4) = x := by simp [hword]
  have hcases : (4 ≤ x.toNat ∧ x.toNat < 8) ∨ 16 ≤ x.toNat := by
    simpa [reservedIndex] using hx
  rcases hcases with ⟨h4, h8⟩ | h16
  · have h := decodeAccess_reservedRegister (off := lowOff x) (by omega) (by omega) d
    rwa [hself] at h
  · have h := decodeAccess_reserved (off := lowOff x) (by omega) (hword ▸ x.isLt) d
    rwa [hself] at h

theorem decodeAccess_write_digestOff (k : Fin 8) (d : Word) :
    decodeAccess (.write (digestOff k) d) = .wrDigest k d :=
  (decodeAccess_digest (by rw [digestOff_toNat]; omega) d).2

/-- The decoder answers the instruction whose code it is given. -/
theorem decode_encode {i : Instr} (hi : i.wellFormed = true) : decode (encode i) = .ok i := by
  have hctrl (d : Word) :
      decode (.access (.write 0x00#32 d)) = .ok (decodeCtrlWrite d) := rfl
  have haccess {a : Access} (h : decodeAccess a = i) : decode (.access a) = .ok i :=
    congrArg Except.ok h
  cases i with
  | wrCtrlClear d => exact (hctrl d).trans (congrArg _ (decodeCtrlWrite_clear hi))
  | wrCtrlStart d =>
    obtain ⟨h1, h0⟩ : d.getLsbD 1 = false ∧ d.getLsbD 0 = true := by
      simpa only [Instr.wellFormed, Bool.and_eq_true, Bool.not_eq_true'] using hi
    exact (hctrl d).trans (congrArg _ (decodeCtrlWrite_start h1 h0))
  | wrCtrlNop d =>
    obtain ⟨h1, h0⟩ : d.getLsbD 1 = false ∧ d.getLsbD 0 = false := by
      simpa only [Instr.wellFormed, Bool.and_eq_true, Bool.not_eq_true'] using hi
    exact (hctrl d).trans (congrArg _ (decodeCtrlWrite_nop h1 h0))
  | rdDigest k => exact haccess (decodeAccess_digestOff k)
  | wrDigest k d => exact haccess (decodeAccess_write_digestOff k d)
  | rdMsg n => exact haccess (decodeAccess_windowOff n 0#32).1
  | wrMsg n d => exact haccess (decodeAccess_windowOff n d).2
  | rdRsvd x => exact haccess (decodeAccess_lowOff hi 0#32).1
  | wrRsvd x d => exact haccess (decodeAccess_lowOff hi d).2
  | rdCtrl | rdStatus | rdLen | rdMsgcap => rfl
  | wrStatus d | wrLen d | wrMsgcap d => rfl
  | stepLoad | stepExpand | stepRound | stepAccum | stepFinal => rfl

/-! ### The byte form -/

/-- Reading the byte form of a code gives the code back (log 7). -/
theorem codeOfBytes_bytesOfCode (c : Code) : codeOfBytes (bytesOfCode c) = .ok c := by
  cases c with
  | phase p => revert p; decide
  | access a =>
    cases a with
    | read off =>
      calc codeOfBytes (bytesOfCode (.access (.read off)))
          = .ok (.access (.read (be32 (lane off 0) (lane off 1) (lane off 2) (lane off 3)))) := rfl
        _ = .ok (.access (.read off)) := by rw [be32_lanes]
    | write off d =>
      calc codeOfBytes (bytesOfCode (.access (.write off d)))
          = .ok (.access (.write (be32 (lane off 0) (lane off 1) (lane off 2) (lane off 3))
              (be32 (lane d 0) (lane d 1) (lane d 2) (lane d 3)))) := rfl
        _ = .ok (.access (.write off d)) := by rw [be32_lanes, be32_lanes]

theorem decodeBytes_of_codeOfBytes {bs : List Byte} {c : Code} (h : codeOfBytes bs = .ok c) :
    decodeBytes bs = decode c := by
  simp only [decodeBytes, h]

/-- Settles O1: the codes by `decode_encode`, one case per instruction, and the bytes of a code hold
the code by `codeOfBytes_bytesOfCode`. -/
theorem decodingAnEncodedInstructionGivesItBack :
    Obligations.DecodingAnEncodedInstructionGivesItBack := by
  refine fun i hi => ⟨decode_encode hi, ?_⟩
  rw [encodeBytes, decodeBytes_of_codeOfBytes (codeOfBytes_bytesOfCode _), decode_encode hi]

/-- Settles O5: each written-out code is closed, and the decoder evaluates it. -/
theorem writtenOutCodesDecode : Obligations.WrittenOutCodesDecode :=
  ⟨rfl, rfl, rfl, rfl, rfl, rfl, rfl, rfl, rfl, rfl, rfl, rfl, rfl⟩

/-! ### The phase that selects a sequencer step -/

/-- A phase selects exactly the step that names it (R63). -/
theorem stepOfPhase_eq_ok_iff {p : Phase} {i : Instr} :
    stepOfPhase p = .ok i ↔ selectingPhase i = some p := by
  cases p <;> cases i <;> simp [stepOfPhase, selectingPhase]

/-- In its phase a sequencer step is the core's turn (R63, R96). -/
theorem exec_eq_coreTurn {s : State} {i : Instr} (h : selectingPhase i = some s.phase) :
    exec i s = coreTurn s := by
  have hdec : decode (.phase (codeOfPhase s.phase)) = .ok i := by
    rw [decode, decodePhase_codeOfPhase, stepOfPhase_eq_ok_iff.2 h]
  exact (coreTurn_of_decode hdec).symm

/-- Outside its phase the meaning of a sequencer step is stuck (log 8). -/
theorem exec_stuck {s : State} {i : Instr} {p : Phase} (h : selectingPhase i = some p)
    (hp : s.phase ≠ p) : exec i s = .fault .stepNotEnabled := by
  have hstep := stepOfPhase_eq_ok_iff.2 h
  cases p <;> cases hstep <;> exact if_neg hp

/-- Settles O9: in its phase the step is the core's turn, which answers in every state. -/
theorem sequencerStepIsEnabledInItsPhaseOnly :
    Obligations.SequencerStepIsEnabledInItsPhaseOnly := by
  refine fun s i p h => ⟨fun hp => ?_, exec_stuck h⟩
  subst hp
  rw [exec_eq_coreTurn h]
  exact takeTurn_next .core s

/-! ### The placing of an instruction -/

/-- A phase code that decodes names the phase that selects its step. -/
theorem phaseOfCode_of_decodePhase {c : BitVec 3} {i : Instr} (h : decodePhase c = .ok i) :
    ∃ p, phaseOfCode c = some p ∧ selectingPhase i = some p := by
  unfold decodePhase at h
  split at h
  case h_1 p hp => exact ⟨p, hp, stepOfPhase_eq_ok_iff.1 h⟩
  case h_2 => cases h

/-- The next step of the state with a code placed runs the instruction of the code (log 9). -/
theorem step_withFetchCode (s : State) {c : Code} {i : Instr} (h : decode c = .ok i) :
    step (s.withFetchCode c) = exec i { s with phase := (selectingPhase i).getD s.phase } := by
  cases c with
  | access a =>
    obtain rfl : decodeAccess a = i := Except.ok.inj h
    rw [selectingPhase_decodeAccess]
    calc step (s.withFetchCode (.access a))
        = takeTurn (.access a) ((s.withFetchCode (.access a)).withTurns s.turns) := step_of_turn rfl
      _ = exec (decodeAccess a) s := rfl
  | phase c =>
    obtain ⟨p, hcode, hsel⟩ := phaseOfCode_of_decodePhase h
    have hplaced : s.withFetchCode (.phase c)
        = { s with phase := p }.withTurns (.core :: s.turns) := by
      simp only [State.withFetchCode, hcode]
    calc step (s.withFetchCode (.phase c))
        = takeTurn .core { s with phase := p } := by rw [hplaced]; exact step_of_turn rfl
      _ = exec i { s with phase := p } := (exec_eq_coreTurn (s := { s with phase := p }) hsel).symm
      _ = exec i { s with phase := (selectingPhase i).getD s.phase } := by rw [hsel]; rfl

/-- Bytes that decode hold a code that decodes. -/
theorem decodeBytes_ok {bs : List Byte} {i : Instr} (h : decodeBytes bs = .ok i) :
    ∃ c, codeOfBytes bs = .ok c ∧ decode c = .ok i := by
  unfold decodeBytes at h
  split at h
  case h_1 c hc => exact ⟨c, hc, h⟩
  case h_2 => cases h

theorem decodeTableWord_some {nbits w : Nat} {i : Instr} (h : decodeTableWord nbits w = some i) :
    decodeBytes (layoutTableWord nbits w) = .ok i := by
  unfold decodeTableWord at h
  split at h
  case h_1 j hj => rw [hj, Option.some.inj h]
  case h_2 => cases h

/-- Settles O7: the table word holds a code, and the placed code is the next step by
`step_withFetchCode`. -/
theorem placedTableWordIsTheNextStep : Obligations.PlacedTableWordIsTheNextStep := by
  intro s nbits w i h
  obtain ⟨c, hcode, hdec⟩ := decodeBytes_ok (decodeTableWord_some h)
  have hplaced : s.withFetchWord nbits w = s.withFetchCode c := by
    simp only [State.withFetchWord, hcode]
  rw [hplaced, step_withFetchCode s hdec]

end Sys2Proof.Machine

namespace Sys2Proof.Machine

/-! ### The bytes of `loadmsg` -/

theorem lane_be32 (b0 b1 b2 b3 : Byte) :
    lane (be32 b0 b1 b2 b3) 0 = b0 ∧ lane (be32 b0 b1 b2 b3) 1 = b1 ∧
    lane (be32 b0 b1 b2 b3) 2 = b2 ∧ lane (be32 b0 b1 b2 b3) 3 = b3 := by
  have h0 := b0.isLt; have h1 := b1.isLt; have h2 := b2.isLt; have h3 := b3.isLt
  refine ⟨?_, ?_, ?_, ?_⟩ <;>
    apply BitVec.eq_of_toNat_eq <;> rw [lane_toNat, be32_toNat] <;> omega

/-- Lane m of word i of a byte string is its byte 4i + m. -/
theorem lane_paddedWord (b : List Byte) (i : Nat) {m : Nat} (hm : m < 4) :
    lane (paddedWord b i) m = b.getD (4 * i + m) 0#8 := by
  obtain ⟨h0, h1, h2, h3⟩ := lane_be32 (b.getD (4 * i) 0#8) (b.getD (4 * i + 1) 0#8)
    (b.getD (4 * i + 2) 0#8) (b.getD (4 * i + 3) 0#8)
  interval_cases m
  exacts [h0, h1, h2, h3]

/-- What the first n window writes of `loadmsg b` have done to s: the bytes of n words stand in MSG,
and nothing but MSG and the returned word has changed. -/
structure WordsPlaced (b : List Byte) (n : Nat) (s t : State) : Prop where
  frame : { t with msg := s.msg, rdata := s.rdata } = s
  bytes : ∀ a, a < 4 * n → t.msgByte a = b.getD a 0#8

theorem WordsPlaced.phase_eq {b : List Byte} {n : Nat} {s t : State} (h : WordsPlaced b n s t) :
    t.phase = s.phase := (congrArg State.phase h.frame :)

theorem WordsPlaced.msgCap_eq {b : List Byte} {n : Nat} {s t : State} (h : WordsPlaced b n s t) :
    t.msgCap = s.msgCap := (congrArg State.msgCap h.frame :)

/-- The window write number n of `loadmsg b` in an idle block. -/
theorem WordsPlaced.succ {b : List Byte} {n : Nat} {s t : State} (h : WordsPlaced b n s t)
    (hp : s.phase = .idle) (hcap : 4 * n + 4 ≤ s.msgCap.bytes) :
    ∃ t', takeTurn (.access (.write (msgwordOff n) (paddedWord b n))) t = .next t' ∧
      WordsPlaced b (n + 1) s t' := by
  have hn : (BitVec.ofNat 29 n).toNat = n := by
    have := msgCap_bytes_legal s.msgCap
    rw [BitVec.toNat_ofNat]
    omega
  have hturn : takeTurn (.access (.write (msgwordOff n) (paddedWord b n))) t
      = .next (t.writeMsgWord (BitVec.ofNat 29 n) (paddedWord b n)).writeReturns := by
    rw [msgwordOff, takeTurn_writeWindow,
      State.writeWindow_idle (by rwa [hn, h.msgCap_eq]) (h.phase_eq.trans hp)]
  refine ⟨_, hturn, ⟨h.frame, fun a ha => ?_⟩⟩
  change (t.writeMsgWord (BitVec.ofNat 29 n) (paddedWord b n)).msgByte a = _
  rcases Nat.lt_or_ge a (4 * n) with hold | hnew
  · rw [State.msgByte_writeMsgWord_ne _ _ _ _ (by omega), h.bytes a hold]
  · obtain ⟨m, rfl⟩ := Nat.exists_eq_add_of_le hnew
    have hlane := t.msgByte_writeMsgWord_lane (BitVec.ofNat 29 n) (paddedWord b n) m (by omega)
    rw [hn] at hlane
    rw [hlane, lane_paddedWord b n (by omega)]

/-- The first n window writes of `loadmsg b` (R66). -/
def loadmsgWrites (b : List Byte) (n : Nat) : List Turn :=
  (List.range n).map fun i => .access (.write (msgwordOff i) (paddedWord b i))

theorem loadmsgTurns_eq (b : List Byte) : loadmsgTurns b =
    loadmsgWrites b (wordCount b.length) ++ [.access (.write lenOff (BitVec.ofNat 32 b.length))] :=
  rfl

theorem loadmsgWrites_succ (b : List Byte) (n : Nat) : loadmsgWrites b (n + 1) =
    loadmsgWrites b n ++ [.access (.write (msgwordOff n) (paddedWord b n))] := by
  simp [loadmsgWrites, List.range_succ]

theorem takeTurns_loadmsgWrites (b : List Byte) {s : State} (hp : s.phase = .idle) (n : Nat)
    (hcap : 4 * n ≤ s.msgCap.bytes) :
    ∃ t, takeTurns (loadmsgWrites b n) s = .next t ∧ WordsPlaced b n s t := by
  induction n with
  | zero => exact ⟨s, rfl, rfl, fun a ha => by omega⟩
  | succ n ih =>
    obtain ⟨t, ht, hplaced⟩ := ih (by omega)
    obtain ⟨t', ht', hplaced'⟩ := hplaced.succ hp (by omega)
    refine ⟨t', ?_, hplaced'⟩
    rw [loadmsgWrites_succ, takeTurns_append ht, takeTurns_cons ht', takeTurns_nil]

/-- The access at LEN runs the LEN write (R115). -/
theorem takeTurn_writeLen (s : State) (d : Word) :
    takeTurn (.access (.write lenOff d)) s = .next (s.writeLen d).writeReturns := rfl

/-- Settles O58: the window writes by induction on their number (`takeTurns_loadmsgWrites`), then
the LEN write, which an idle block accepts. -/
theorem loadmsgPlacesTheMessage : Obligations.LoadmsgPlacesTheMessage := by
  intro s b hp hfits
  obtain ⟨hcap4, -, hcap⟩ := msgCap_bytes_legal s.msgCap
  have hwords : 4 * wordCount b.length ≤ s.msgCap.bytes := by unfold wordCount; omega
  have hcover : b.length ≤ 4 * wordCount b.length := by unfold wordCount; omega
  obtain ⟨t, ht, hplaced⟩ := takeTurns_loadmsgWrites b hp _ hwords
  refine ⟨(t.setLen (BitVec.ofNat 32 b.length)).writeReturns, ?turns, ?len, fun i hi => ?bytes,
    ?frame⟩
  case turns =>
    rw [loadmsgTurns_eq, takeTurns_append ht, takeTurns_cons (takeTurn_writeLen t _), takeTurns_nil,
      State.writeLen_idle (hplaced.phase_eq.trans hp)]
  case len =>
    change (BitVec.ofNat 32 b.length).toNat = b.length
    rw [BitVec.toNat_ofNat]
    omega
  case bytes =>
    have hbyte : t.msgByte i = b[i] := by
      rw [hplaced.bytes i (by omega), List.getD_eq_getElem b 0#8 hi]
    rw [List.getElem?_eq_getElem hi, ← hbyte]
    rfl
  case frame =>
    have hlen : t.len = s.len := (congrArg State.len hplaced.frame :)
    calc { (t.setLen (BitVec.ofNat 32 b.length)).writeReturns with
            len := s.len, msg := s.msg, rdata := s.rdata }
        = { t with msg := s.msg, rdata := s.rdata } := by rw [← hlen]; rfl
      _ = s := hplaced.frame

/-! ### The lines of a host program -/

theorem HostAgent.turn_rd {h : HostAgent} {off : Word} {dest : Option Nat} {s t : State}
    (hline : h.lines[h.at_]? = some (.rd off dest))
    (ht : takeTurn (.access (.read off)) s = .next t) :
    h.turn s = .next (h.bind dest t.rdata, t) := by
  simp only [HostAgent.turn, hline, ht]

theorem HostAgent.turn_gotoIfSet {h : HostAgent} {x target : Nat} {mask : Word}
    (hline : h.lines[h.at_]? = some (.gotoIfSet x mask target)) (s : State) :
    h.turn s = .next (h.branch (h.varValue x &&& mask != 0#32) target, s) := by
  simp only [HostAgent.turn, hline]

/-- The host h at line n, with d bound to x. -/
def HostAgent.boundAt (h : HostAgent) (n x : Nat) (d : Word) : HostAgent :=
  { h with at_ := n, vars := (x, d) :: h.vars }

theorem HostAgent.bind_some (h : HostAgent) (x : Nat) (d : Word) :
    h.bind (some x) (some d) = h.boundAt (h.at_ + 1) x d := rfl

/-- A branch moves the host and nothing else. -/
theorem HostAgent.branch_boundAt (h : HostAgent) (n x : Nat) (d : Word) (taken : Bool)
    (target : Nat) : (h.boundAt n x d).branch taken target
      = h.boundAt (if taken then target else n + 1) x d := by
  cases taken <;> rfl

@[simp] theorem HostAgent.varValue_boundAt (h : HostAgent) (n x : Nat) (d : Word) :
    (h.boundAt n x d).varValue x = d := by
  simp [HostAgent.varValue, HostAgent.boundAt]

/-- The access at STATUS returns the STATUS word (R112). -/
theorem takeTurn_readStatus (s : State) :
    takeTurn (.access (.read statusOff)) s = .next (s.readReturns s.statusWord) := rfl

/-- The mask 0x1 picks BUSY out of the STATUS word (R27). -/
theorem State.statusWord_mask_busy (s : State) : (s.statusWord &&& 0x1#32 != 0#32) = s.busy := by
  rw [BitVec.and_one_eq_setWidth_ofBool_getLsbD, s.statusWord_getLsbD, if_pos rfl]
  cases s.busy <;> rfl

/-- The first line of `wait` binds the STATUS word (R66). -/
theorem turn_waitRead {h : HostAgent} {x : Nat} (hlines : h.lines = pseudoWait 0 x)
    (hat : h.at_ = 0) (s : State) :
    h.turn s = .next (h.boundAt 1 x s.statusWord, s.readReturns s.statusWord) := by
  have hline : h.lines[h.at_]? = some (.rd statusOff (some x)) := by rw [hlines, hat]; rfl
  rw [HostAgent.turn_rd hline (takeTurn_readStatus s), State.readReturns_rdata,
    HostAgent.bind_some, hat]

/-- The second line of `wait` branches on the BUSY bit of the bound STATUS word (R66). -/
theorem turn_waitBranch {h : HostAgent} {x : Nat} (hlines : h.lines = pseudoWait 0 x)
    (s t : State) : (h.boundAt 1 x s.statusWord).turn t
      = .next (h.boundAt (if s.busy then 0 else 2) x s.statusWord, t) := by
  have hline : (h.boundAt 1 x s.statusWord).lines[(h.boundAt 1 x s.statusWord).at_]?
      = some (.gotoIfSet x 0x1#32 0) := by
    change h.lines[1]? = _
    rw [hlines]
    rfl
  rw [HostAgent.turn_gotoIfSet hline, HostAgent.varValue_boundAt, s.statusWord_mask_busy,
    HostAgent.branch_boundAt]

/-- Settles O59: the two lines by `turn_waitRead` and `turn_waitBranch`; BUSY is `phase ≠ .idle`. -/
theorem waitLoopsWhileBusy : Obligations.WaitLoopsWhileBusy :=
  fun s h x hlines hat => ⟨_, _, _, turn_waitRead hlines hat s, turn_waitBranch hlines s _, rfl,
    h.varValue_boundAt _ x _, rfl, fun hp => if_pos (s.busy_iff.2 hp),
    fun hp => if_neg (ne_true_of_eq_false (s.busy_false_iff.2 hp))⟩

end Sys2Proof.Machine

namespace Sys2Proof.Machine

/-! ### The padded length (R69) -/

theorem padTotal_eq (L : Nat) : padTotal L = L + padLen L := rfl

/-- The four parts of the PaddedMessage in order: message, marker, zeros, length field. -/
theorem padTotal_eq_parts (L : Nat) : padTotal L = L + 1 + (padLen L - 9) + 8 := by
  have := padLen_bounds L
  rw [padTotal_eq]
  omega

theorem padTotal_mod (L : Nat) : padTotal L % 64 = 0 := (padLen_bounds L).2.2

theorem blockCount_mul (L : Nat) : blockCount L * 64 = padTotal L :=
  Nat.div_mul_cancel (Nat.dvd_of_mod_eq_zero (padTotal_mod L))

/-- Settles O40: whole blocks by `padTotal_mod`, the difference T(L) - L is `padLen L`, and there is
at least one block. -/
theorem paddedLengthIsWholeBlocks : Obligations.PaddedLengthIsWholeBlocks := by
  refine ⟨fun L => ?_, blockCount_eq 55, blockCount_eq 56⟩
  obtain ⟨hlow, hhigh, -⟩ := padLen_bounds L
  have hdiff : padTotal L - L = padLen L := Nat.add_sub_cancel_left _ _
  have hfull : 64 ≤ padTotal L := by
    have := blockCount_mul L
    have := blockCount_pos L
    omega
  exact ⟨padTotal_eq L, padTotal_mod L, hfull, hdiff ▸ hlow, hdiff ▸ hhigh, blockCount_mul L,
    blockCount_eq L, blockCount_pos L⟩

/-! ### The bytes of the PaddedMessage, part by part (R70, R71) -/

theorem padByte_message (m : Nat → Byte) {L i : Nat} (h : i < L) : padByte m L i = m i := if_pos h

theorem padByte_marker (m : Nat → Byte) (L : Nat) : padByte m L L = 0x80#8 := by
  simp [padByte]

theorem padByte_zeros (m : Nat → Byte) {L k : Nat} (h : k < padLen L - 9) :
    padByte m L (L + 1 + k) = 0x00#8 := by
  have hend : L + 1 + k < padTotal L - 8 := by rw [padTotal_eq_parts]; omega
  rw [padByte, if_neg (by omega), if_neg (by omega), if_pos hend]

theorem padByte_lengthField (m : Nat → Byte) {L k : Nat} (h : k < 8) :
    padByte m L (L + 1 + (padLen L - 9) + k) = byteBE64 (lengthField L) k := by
  have hstart : padTotal L - 8 = L + 1 + (padLen L - 9) := by rw [padTotal_eq_parts]; omega
  rw [padByte, if_neg (by omega), if_neg (by omega), hstart, if_neg (by omega),
    if_pos (by rw [padTotal_eq_parts]; omega), Nat.add_sub_cancel_left]

/-! ### The PaddedMessage as a list (R72) -/

/-- Bytes a .. a + n - 1 of the PaddedMessage. -/
def padSlice (m : Nat → Byte) (L a n : Nat) : List Byte :=
  (List.range n).map fun k => padByte m L (a + k)

theorem padSlice_add (m : Nat → Byte) (L a n k : Nat) :
    padSlice m L a (n + k) = padSlice m L a n ++ padSlice m L (a + n) k := by
  simp [padSlice, List.range_add, Nat.add_assoc]

theorem padMessage_eq_padSlice (m : List Byte) :
    padMessage m = padSlice (fun i => m.getD i 0#8) m.length 0 (padTotal m.length) := by
  simp [padMessage, padSlice]

theorem padSlice_message (m : List Byte) :
    padSlice (fun i => m.getD i 0#8) m.length 0 m.length = m := by
  refine List.ext_getElem (by simp [padSlice]) fun i _ hi => ?_
  simp only [padSlice, List.getElem_map, List.getElem_range, Nat.zero_add]
  rw [padByte_message _ hi, List.getD_eq_getElem m 0#8 hi]

theorem padSlice_marker (m : Nat → Byte) (L : Nat) : padSlice m L L 1 = [0x80#8] :=
  congrArg (fun b => [b]) (padByte_marker m L)

theorem padSlice_zeros (m : Nat → Byte) (L : Nat) :
    padSlice m L (L + 1) (padLen L - 9) = List.replicate (padLen L - 9) 0x00#8 := by
  refine List.eq_replicate_iff.2 ⟨by simp [padSlice], fun b hb => ?_⟩
  obtain ⟨k, hk, rfl⟩ := List.mem_map.1 hb
  exact padByte_zeros m (List.mem_range.1 hk)

theorem padSlice_lengthField (m : Nat → Byte) (L : Nat) :
    padSlice m L (L + 1 + (padLen L - 9)) 8 = bytesBE64 (lengthField L) :=
  List.map_congr_left fun _ hk => padByte_lengthField m (List.mem_range.1 hk)

theorem lengthField_toNat (L : Nat) : (lengthField L).toNat = 8 * L % 2 ^ 64 :=
  BitVec.toNat_ofNat _ _

/-- Settles O41: `padTotal_eq_parts` cuts the PaddedMessage into its four parts, and each part is
one of the `padSlice` lemmas. -/
theorem paddedMessageLayout : Obligations.PaddedMessageLayout := by
  intro m
  refine ⟨lengthField m.length, lengthField_toNat m.length, ?_⟩
  rw [padMessage_eq_padSlice, padTotal_eq_parts]
  simp only [padSlice_add, Nat.zero_add, padSlice_message, padSlice_marker, padSlice_zeros,
    padSlice_lengthField, List.append_assoc, List.cons_append, List.nil_append]

end Sys2Proof.Machine

namespace Sys2Proof.Machine

/-! ### The bytes of a slice -/

@[simp] theorem padSlice_length (m : Nat → Byte) (L a n : Nat) : (padSlice m L a n).length = n := by
  simp [padSlice]

theorem padSlice_getD (m : Nat → Byte) {L a n k : Nat} (h : k < n) :
    (padSlice m L a n).getD k 0#8 = padByte m L (a + k) := by
  rw [List.getD_eq_getElem _ _ (by simpa using h)]
  simp [padSlice]

/-! ### The blocks (R75, R76) -/

/-- Block n is what p has after its first n blocks, cut at 64 bytes. -/
theorem flatMap_blockOf (p : List Byte) (n : Nat) :
    (List.range n).flatMap (blockOf p) = p.take (64 * n) := by
  induction n with
  | zero => rfl
  | succ n ih =>
    rw [List.range_succ, List.flatMap_append, ih, List.flatMap_singleton, Nat.mul_succ,
      List.take_add, blockOf]

theorem padMessage_length (m : List Byte) : (padMessage m).length = padTotal m.length := by
  simp [padMessage]

theorem flatMap_blockOf_padMessage (m : List Byte) :
    (List.range (blockCount m.length)).flatMap (blockOf (padMessage m)) = padMessage m := by
  rw [flatMap_blockOf, Nat.mul_comm, blockCount_mul, ← padMessage_length, List.take_length]

/-- Block j is bytes 64j .. 64j + 63 of the PaddedMessage: the blocks before it and the bytes after
it are cut off. -/
theorem blockOf_padMessage {m : List Byte} {j : Nat} (h : j < blockCount m.length) :
    blockOf (padMessage m) j = padSlice (fun n => m.getD n 0#8) m.length (64 * j) 64 := by
  obtain ⟨r, hr⟩ : ∃ r, padTotal m.length = 64 * j + (64 + r) :=
    ⟨padTotal m.length - (64 * j + 64), by have := blockCount_mul m.length; omega⟩
  rw [blockOf, padMessage_eq_padSlice, hr, padSlice_add, padSlice_add, Nat.zero_add,
    List.drop_left' (padSlice_length ..), List.take_left' (padSlice_length ..)]

/-- Settles O42: the blocks end to end by `flatMap_blockOf_padMessage`; a block is a slice of the
PaddedMessage by `blockOf_padMessage`, and byte 4i + k of the slice is byte 64j + 4i + k. -/
theorem blocksAndTheirWords : Obligations.BlocksAndTheirWords := by
  refine fun m => ⟨flatMap_blockOf_padMessage m, fun j i hj hi => ?_⟩
  have hbyte : ∀ k, k < 4 → (blockOf (padMessage m) j).getD (4 * i + k) 0#8
      = padByte (fun n => m.getD n 0#8) m.length (64 * j + 4 * i + k) := fun k hk => by
    rw [blockOf_padMessage hj, padSlice_getD _ (by omega), Nat.add_assoc]
  refine ⟨by rw [blockOf_padMessage hj, padSlice_length], ?_⟩
  rw [blockWord, hbyte 1 (by decide), hbyte 2 (by decide), hbyte 3 (by decide)]
  exact congrArg (be32 · _ _ _) (hbyte 0 (by decide)).symm

end Sys2Proof.Machine

namespace Sys2Proof.Machine

/-! ### The schedule of a block (R80, R81) -/

/-- Settles O43: the first sixteen words by `scheduleWord_low`; word t + 16 is at or above 16, where
`scheduleWord_high` reads the words 2, 7, 15 and 16 places back. -/
theorem scheduleFollowsItsRecurrence : Obligations.ScheduleFollowsItsRecurrence := by
  refine fun b => ⟨fun t ht => scheduleWord_low b ht, fun t => ?_⟩
  calc scheduleWord b (t + 16)
      = expandSum (scheduleWord b (t + 14)) (scheduleWord b (t + 9)) (scheduleWord b (t + 1))
          (scheduleWord b t) := scheduleWord_high b (Nat.le_add_left 16 t)
    _ = _ := rfl

end Sys2Proof.Machine

namespace Sys2Proof.Machine

/-! ### The bits of Ch and Maj (R85, R86) -/

/-- Where e has 1 the second conjunction is 0, where e has 0 the first one is. The premise on i is
for the complement, which has no bit at 32 and above. -/
theorem ch_getLsbD (e f g : Word) {i : Nat} (hi : i < 32) :
    (ch e f g).getLsbD i = if e.getLsbD i then f.getLsbD i else g.getLsbD i := by
  rw [ch, BitVec.getLsbD_xor, BitVec.getLsbD_and, BitVec.getLsbD_and, BitVec.getLsbD_not,
    decide_eq_true hi]
  cases e.getLsbD i with
  | true => simp
  | false => simp

theorem maj_getLsbD (a b c : Word) (i : Nat) :
    (maj a b c).getLsbD i =
      ((a.getLsbD i && b.getLsbD i) ^^ (a.getLsbD i && c.getLsbD i) ^^
        (b.getLsbD i && c.getLsbD i)) := by
  rw [maj, BitVec.getLsbD_xor, BitVec.getLsbD_xor, BitVec.getLsbD_and, BitVec.getLsbD_and,
    BitVec.getLsbD_and]

/-- Maj's exclusive or of pairs is the majority: two ones make one pair, three make three pairs, and
both numbers are odd. -/
theorem pairs_xor_iff_two_le : ∀ x y z : Bool,
    ((x && y) ^^ (x && z) ^^ (y && z)) = true ↔ 2 ≤ x.toNat + y.toNat + z.toNat := by
  decide

/-- Settles O38: Ch by `ch_getLsbD`; a bit of Maj is the exclusive or of the three pairs of bits
(`maj_getLsbD`), which is their majority (`pairs_xor_iff_two_le`). -/
theorem chooseAndMajorityBitByBit : Obligations.ChooseAndMajorityBitByBit := by
  refine fun a b c i hi => ⟨ch_getLsbD a b c hi, ?_⟩
  rw [maj_getLsbD]
  exact pairs_xor_iff_two_le _ _ _

end Sys2Proof.Machine

namespace Sys2Proof.Machine

/-! ### The bytes of an assembled digest (R92) -/

@[simp] theorem bytesBE32_length (w : Word) : (bytesBE32 w).length = 4 := rfl

theorem assemble_length (hs : Words8) : (assemble hs).length = 32 := by
  calc (assemble hs).length
      = (hs.toList.map fun w => (bytesBE32 w).length).sum := List.length_flatMap
    _ = hs.toList.length * 4 := by
      simp only [bytesBE32_length, List.map_const', List.sum_replicate, smul_eq_mul]
    _ = 32 := by rw [Vector.length_toList]

/-- Settles O44: the length by `assemble_length`, also for a message, whose digest is an assembled
HashState; byte 4k + m is lane m of word k (`assemble_getElem?`), whose number is `lane_toNat`. -/
theorem digestBytesInStateOrder : Obligations.DigestBytesInStateOrder :=
  ⟨fun hs => ⟨assemble_length hs, fun k m hm =>
      ⟨lane (hs.get k) m, assemble_getElem? hs k hm, lane_toNat (hs.get k) m⟩⟩,
    fun _ => assemble_length _⟩

end Sys2Proof.Machine

namespace Sys2Proof.Machine

/-! ### The sequencer steps, one by one -/

/-- Settles O8: a step is a turn of the core or the first turn to come, and every turn answers. -/
theorem everyStepAnswersANextState : Obligations.EveryStepAnswersANextState := by
  intro s
  rcases step_cases s with ⟨-, h⟩ | ⟨u, us, -, h⟩ <;> rw [h]
  · exact takeTurn_next .core s
  · exact takeTurn_next u (s.withTurns us)

/-- Settles O32: the words by `State.loadedSchedule_low` and `State.loadedSchedule_high`. -/
theorem loadStepLoadsTheBlock : Obligations.LoadStepLoadsTheBlock := by
  intro s hp
  exact ⟨s.afterLoad, if_pos hp, s.loadedSchedule_low, s.loadedSchedule_high, rfl, rfl, rfl, rfl⟩

/-- The loop over t writes t and the phase alone. -/
theorem State.advance_frame (s : State) (p : Phase) :
    { s.advance p with t := s.t, phase := s.phase } = s := by
  unfold State.advance
  split <;> rfl

theorem State.afterExpand_frame (s : State) :
    { s.afterExpand with w := s.w, t := s.t, phase := s.phase } = s :=
  congrArg (fun r : State => { r with w := s.w })
    ({ s with w := s.w.set s.t (expandWord s.w s.t) : State }.advance_frame .round)

theorem State.afterRound_frame (s : State) :
    { s.afterRound with v := s.v, t := s.t, phase := s.phase } = s :=
  congrArg (fun r : State => { r with v := s.v })
    ({ s with v := roundStep s.t.val s.v (s.w.get s.t) : State }.advance_frame .accum)

theorem State.afterAccum_frame (s : State) :
    { s.afterAccum with hs := s.hs, j := s.j, phase := s.phase } = s := by
  unfold State.afterAccum
  split <;> rfl

/-- The index before t by n, named as a number. -/
theorem index_sub_eq {t a n : Fin 64} (h : a.val + n.val = t.val) : t - n = a :=
  Fin.ext (by rw [index_sub (by omega)]; omega)

/-- Settles O33: W[t] is `expandWord`, whose four indices are named by `index_sub_eq`. -/
theorem expandStepComputesOneScheduleWord : Obligations.ExpandStepComputesOneScheduleWord := by
  intro s hp _
  refine ⟨s.afterExpand, if_pos hp, fun a b c d ha hb hc hd => ?word, fun i hi => ?other,
    fun h63 => State.afterExpand_last (Fin.ext h63), fun hlt => ?next, s.afterExpand_frame⟩
  case word =>
    rw [State.afterExpand_w, schedule_get_set, if_pos rfl, expandWord, index_sub_eq (n := 2) ha,
      index_sub_eq (n := 7) hb, index_sub_eq (n := 15) hc, index_sub_eq (n := 16) hd]
    rfl
  case other => rw [State.afterExpand_w, schedule_get_set, if_neg hi]
  case next =>
    obtain ⟨ht, hphase⟩ := State.afterExpand_next hlt
    exact ⟨ht, hphase.trans hp⟩

/-- Settles O34: the eight working variables are the entries of `roundStep` (R89). -/
theorem roundStepRunsOneRound : Obligations.RoundStepRunsOneRound := by
  intro s hp
  refine ⟨s.afterRound, roundT1 s.t.val s.v (s.w.get s.t), roundT2 s.v, if_pos hp, rfl, rfl, ?_⟩
  rw [State.afterRound_v]
  refine ⟨rfl, rfl, rfl, rfl, rfl, rfl, rfl, rfl,
    fun h63 => State.afterRound_last (Fin.ext h63), fun hlt => ?_, s.afterRound_frame⟩
  obtain ⟨ht, hphase⟩ := State.afterRound_next hlt
  exact ⟨ht, hphase.trans hp⟩

theorem addWords_get (h v : Words8) (i : Fin 8) : (addWords h v).get i = h.get i + v.get i := by
  fin_cases i <;> rfl

/-- Settles O35: the sums by `addWords_get`, and the two ways of the block loop. -/
theorem accumStepAddsAndLoops : Obligations.AccumStepAddsAndLoops := by
  intro s hp
  refine ⟨s.afterAccum, if_pos hp, fun i => ?_, State.afterAccum_more, State.afterAccum_end,
    s.afterAccum_frame⟩
  rw [State.afterAccum_hs, addWords_get, BitVec.toNat_add]

/-- Settles O36: STEP_FINAL writes three elements, and BUSY is `phase ≠ .idle`. -/
theorem finalStepWritesTheDigest : Obligations.FinalStepWritesTheDigest :=
  fun s hp => ⟨s.afterFinal, if_pos hp, fun _ => rfl, rfl, rfl, rfl, rfl⟩

end Sys2Proof.Machine

namespace Sys2Proof.Machine

/-! ### Where a run stands -/

/-- The number of core steps of its run that a state has behind it, by its phase, j and t: a block
takes 114 (one LOAD, 48 EXPAND, 64 ROUND, one ACCUM), and STEP_FINAL comes after the last (R104). -/
def State.stepsDone (s : State) : Nat :=
  match s.phase with
  | .load   => 114 * s.j
  | .expand => 114 * s.j + (s.t.val - 15)
  | .round  => 114 * s.j + 49 + s.t.val
  | .accum  => 114 * s.j + 113
  | .final  => 114 * blockCount s.len.toNat
  | .idle   => 114 * blockCount s.len.toNat + 1

theorem State.stepsDone_load {s : State} (hp : s.phase = .load) : s.stepsDone = 114 * s.j := by
  rw [State.stepsDone, hp]

theorem State.stepsDone_expand {s : State} (hp : s.phase = .expand) :
    s.stepsDone = 114 * s.j + (s.t.val - 15) := by
  rw [State.stepsDone, hp]

theorem State.stepsDone_round {s : State} (hp : s.phase = .round) :
    s.stepsDone = 114 * s.j + 49 + s.t.val := by
  rw [State.stepsDone, hp]

theorem State.stepsDone_accum {s : State} (hp : s.phase = .accum) :
    s.stepsDone = 114 * s.j + 113 := by
  rw [State.stepsDone, hp]

theorem State.stepsDone_final {s : State} (hp : s.phase = .final) :
    s.stepsDone = 114 * blockCount s.len.toNat := by
  rw [State.stepsDone, hp]

theorem State.stepsDone_idle {s : State} (hp : s.phase = .idle) :
    s.stepsDone = 114 * blockCount s.len.toNat + 1 := by
  rw [State.stepsDone, hp]

/-- Before STEP_FINAL a run stands inside block j, whose last step it has not done. -/
theorem State.stepsDone_block {s : State} (hrun : s.phase ≠ .idle) (hfinal : s.phase ≠ .final) :
    114 * s.j ≤ s.stepsDone ∧ s.stepsDone < 114 * (s.j + 1) := by
  have ht := s.t.isLt
  cases hp : s.phase with
  | idle => exact absurd hp hrun
  | load => rw [State.stepsDone_load hp]; omega
  | expand => rw [State.stepsDone_expand hp]; omega
  | round => rw [State.stepsDone_round hp]; omega
  | accum => rw [State.stepsDone_accum hp]; omega
  | final => exact absurd hp hfinal

theorem State.RunShape.stepsDone_le {s : State} (hs : s.RunShape) (hrun : s.phase ≠ .idle) :
    s.stepsDone ≤ 114 * blockCount s.len.toNat := by
  by_cases hp : s.phase = .final
  · rw [State.stepsDone_final hp]
  · have hj := hs.blockInRun hrun
    have hblock := State.stepsDone_block hrun hp
    omega

/-- FINAL is the one place with the steps of every block behind it. -/
theorem State.RunShape.final_of_stepsDone {s : State} (hs : s.RunShape) (hrun : s.phase ≠ .idle)
    (h : s.stepsDone = 114 * blockCount s.len.toNat) : s.phase = .final := by
  by_contra hp
  have hj := hs.blockInRun hrun
  have hblock := State.stepsDone_block hrun hp
  omega

theorem State.running_of_stepsDone {s : State}
    (h : s.stepsDone ≤ 114 * blockCount s.len.toNat) : s.phase ≠ .idle := by
  intro hp
  rw [State.stepsDone_idle hp] at h
  omega

/-- The phase and t after r steps of a block (R104). -/
structure State.AtBlockStep (s : State) (r : Nat) : Prop where
  load   : r = 0 → s.phase = .load
  expand : 1 ≤ r → r ≤ 48 → s.phase = .expand ∧ s.t.val = 15 + r
  round  : 49 ≤ r → r ≤ 112 → s.phase = .round ∧ s.t.val = r - 49
  accum  : r = 113 → s.phase = .accum

/-- The steps of a block behind a state tell its phase and its t. -/
theorem State.RunShape.atBlockStep {s : State} (hs : s.RunShape) (hrun : s.phase ≠ .idle)
    (hfinal : s.phase ≠ .final) : s.AtBlockStep (s.stepsDone - 114 * s.j) := by
  have ht := s.t.isLt
  cases hp : s.phase with
  | idle => exact absurd hp hrun
  | load =>
    rw [State.stepsDone_load hp]
    exact ⟨fun _ => hp, by omega, by omega, by omega⟩
  | expand =>
    have h16 := hs.expandFrom hp
    rw [State.stepsDone_expand hp]
    exact ⟨by omega, fun _ _ => ⟨hp, by omega⟩, by omega, by omega⟩
  | round =>
    rw [State.stepsDone_round hp]
    exact ⟨by omega, by omega, fun _ _ => ⟨hp, by omega⟩, by omega⟩
  | accum =>
    rw [State.stepsDone_accum hp]
    exact ⟨by omega, by omega, by omega, fun _ => hp⟩
  | final => exact absurd hp hfinal

/-! ### One core step is one step of the run -/

theorem State.stepsDone_afterExpand {s : State} (hs : s.RunShape) (hp : s.phase = .expand) :
    s.afterExpand.stepsDone = s.stepsDone + 1 := by
  have h16 := hs.expandFrom hp
  rw [State.stepsDone_expand hp]
  rcases index_cases s.t with h63 | hlt
  · obtain ⟨ht, hq⟩ := State.afterExpand_last h63
    rw [State.stepsDone_round hq, ht, h63, State.afterExpand_j]
    rfl
  · obtain ⟨ht, hq⟩ := State.afterExpand_next hlt
    rw [State.stepsDone_expand (hq.trans hp), ht, State.afterExpand_j]
    omega

theorem State.stepsDone_afterRound {s : State} (hp : s.phase = .round) :
    s.afterRound.stepsDone = s.stepsDone + 1 := by
  rw [State.stepsDone_round hp]
  rcases index_cases s.t with h63 | hlt
  · obtain ⟨-, hq⟩ := State.afterRound_last h63
    rw [State.stepsDone_accum hq, h63, State.afterRound_j]
    rfl
  · obtain ⟨ht, hq⟩ := State.afterRound_next hlt
    rw [State.stepsDone_round (hq.trans hp), ht, State.afterRound_j]
    rfl

/-- STEP_ACCUM leads to the next block, or from the last one to FINAL. -/
theorem State.stepsDone_afterAccum {s : State} (hs : s.RunShape) (hp : s.phase = .accum) :
    s.afterAccum.stepsDone = s.stepsDone + 1 := by
  have hj := hs.blockInRun (by simp [hp])
  rw [State.stepsDone_accum hp]
  rcases Nat.lt_or_ge (s.j + 1) (blockCount s.len.toNat) with hmore | hend
  · obtain ⟨hj', hq⟩ := State.afterAccum_more hmore
    rw [State.stepsDone_load hq, hj']
    omega
  · obtain ⟨-, hq⟩ := State.afterAccum_end hend
    rw [State.stepsDone_final hq, State.afterAccum_len]
    omega

theorem coreTurn_stepsDone {s t : State} (hs : s.RunShape) (hrun : s.phase ≠ .idle)
    (h : coreTurn s = .next t) : t.stepsDone = s.stepsDone + 1 := by
  rcases coreTurn_next h with
    ⟨hp, -⟩ | ⟨hp, rfl⟩ | ⟨hp, rfl⟩ | ⟨hp, rfl⟩ | ⟨hp, rfl⟩ | ⟨hp, rfl⟩
  · exact absurd hp hrun
  · rw [State.stepsDone_load hp]; rfl
  · exact State.stepsDone_afterExpand hs hp
  · exact State.stepsDone_afterRound hp
  · exact State.stepsDone_afterAccum hs hp
  · rw [State.stepsDone_final hp]; rfl

/-- The core leaves a run by STEP_FINAL alone. -/
theorem coreTurn_ends_run {s t : State} (hs : s.RunShape) (hrun : s.phase ≠ .idle)
    (h : coreTurn s = .next t) (hidle : t.phase = .idle) :
    s.phase = .final ∧ t = s.afterFinal := by
  obtain ⟨hlen, -, -⟩ := coreTurn_keeps_message h
  have hstep := coreTurn_stepsDone hs hrun h
  rw [State.stepsDone_idle hidle, hlen] at hstep
  have hp := hs.final_of_stepsDone hrun (Nat.succ.inj hstep).symm
  rw [coreTurn_final hp] at h
  exact ⟨hp, (Host.Outcome.next.inj h).symm⟩

/-! ### The other turns of a run -/

/-- An access of a run either is a CLEAR, which ends the run, or leaves the run alone (R145). -/
theorem access_during_run {s t : State} {a : Access} (hrun : s.phase ≠ .idle)
    (h : takeTurn (.access a) s = .next t) :
    (∃ d, decodeAccess a = .wrCtrlClear d ∧ t = s.clearRun.writeReturns) ∨
    ∃ e r, t = { s with errBusy := e, rdata := r } := by
  by_cases hclear : ∃ d, decodeAccess a = .wrCtrlClear d
  · obtain ⟨d, hd⟩ := hclear
    rw [takeTurn_access, hd] at h
    exact .inl ⟨d, hd, (Host.Outcome.next.inj h).symm⟩
  · simp only [not_exists] at hclear
    obtain ⟨hsame, -⟩ := runIsUndisturbedByHostAccesses s t a hrun hclear h
    exact .inr ⟨t.errBusy, t.rdata, by rw [← hsame]⟩

/-- A turn of the host or of reset that leaves the run in progress leaves its place and its
message. -/
theorem otherTurn_keeps_run {u : Turn} {s t : State} (hu : u ≠ .core) (hrun : s.phase ≠ .idle)
    (h : takeTurn u s = .next t) (hgo : t.phase ≠ .idle) :
    t.stepsDone = s.stepsDone ∧ t.len = s.len ∧ t.msg = s.msg ∧ t.draw = s.draw := by
  cases u with
  | core => exact absurd rfl hu
  | reset => obtain rfl := Host.Outcome.next.inj h; exact absurd rfl hgo
  | access a =>
    rcases access_during_run hrun h with ⟨d, -, rfl⟩ | ⟨e, r, rfl⟩
    · exact absurd rfl hgo
    · exact ⟨rfl, rfl, rfl, rfl⟩

/-- How a run can end: by STEP_FINAL, by a CLEAR, or by reset (R107). -/
theorem turn_ends_run {u : Turn} {s t : State} (hs : s.RunShape) (hrun : s.phase ≠ .idle)
    (h : takeTurn u s = .next t) (hidle : t.phase = .idle) :
    (u = .core ∧ s.phase = .final ∧ t.done = true ∧ t.digest = s.hs) ∨
    (∃ a d, u = .access a ∧ decodeAccess a = .wrCtrlClear d ∧ t.digest = s.digest) ∨
    u = .reset := by
  cases u with
  | reset => exact .inr (.inr rfl)
  | core =>
    obtain ⟨hfinal, rfl⟩ := coreTurn_ends_run hs hrun h hidle
    exact .inl ⟨rfl, hfinal, rfl, rfl⟩
  | access a =>
    rcases access_during_run hrun h with ⟨d, hd, rfl⟩ | ⟨e, r, rfl⟩
    · exact .inr (.inl ⟨a, d, rfl, hd, rfl⟩)
    · exact absurd hidle hrun

/-! ### A run in progress -/

/-- The state t is in the run that the state r is in, n core steps later, over the same message. -/
structure LaterInRun (r : State) (n : Nat) (t : State) : Prop where
  running  : t.phase ≠ .idle
  shape    : t.RunShape
  progress : r.RunProgress → t.RunProgress
  steps    : t.stepsDone = r.stepsDone + n
  len      : t.len = r.len
  msg      : t.msg = r.msg
  draw     : t.draw = r.draw

theorem LaterInRun.refl {r : State} (hrun : r.phase ≠ .idle) (hs : r.RunShape) :
    LaterInRun r 0 r :=
  ⟨hrun, hs, id, rfl, rfl, rfl, rfl⟩

theorem LaterInRun.trans {r s t : State} {n k : Nat} (hs : LaterInRun r n s)
    (ht : LaterInRun s k t) : LaterInRun r (n + k) t where
  running := ht.running
  shape := ht.shape
  progress hr := ht.progress (hs.progress hr)
  steps := by rw [ht.steps, hs.steps, Nat.add_assoc]
  len := ht.len.trans hs.len
  msg := ht.msg.trans hs.msg
  draw := ht.draw.trans hs.draw

/-- No state of a run has more core steps behind it than its blocks take. -/
theorem LaterInRun.steps_le {r t : State} {n : Nat} (ht : LaterInRun r n t) :
    n ≤ 114 * blockCount r.len.toNat := by
  have hle := ht.shape.stepsDone_le ht.running
  rw [ht.steps, ht.len] at hle
  omega

/-- A turn that does not end the run: one core step more if it is the core's, and else none. -/
theorem LaterInRun.turn {r s t : State} {n : Nat} (hs : LaterInRun r n s) {u : Turn}
    (h : takeTurn u s = .next t) (hgo : t.phase ≠ .idle) :
    LaterInRun r (n + [u].count .core) t := by
  have hshape := takeTurn_keeps_runShape u s t hs.shape h
  have hprogress := fun hr => takeTurn_keeps_runProgress u s t hs.shape (hs.progress hr) h
  by_cases hu : u = .core
  · subst hu
    obtain ⟨hlen, hmsg, hdraw⟩ := coreTurn_keeps_message h
    refine ⟨hgo, hshape, hprogress, ?_, hlen.trans hs.len, hmsg.trans hs.msg,
      hdraw.trans hs.draw⟩
    rw [coreTurn_stepsDone hs.shape hs.running h, hs.steps]
    rfl
  · obtain ⟨hsteps, hlen, hmsg, hdraw⟩ := otherTurn_keeps_run hu hs.running h hgo
    refine ⟨hgo, hshape, hprogress, ?_, hlen.trans hs.len, hmsg.trans hs.msg,
      hdraw.trans hs.draw⟩
    rw [hsteps, hs.steps, List.count_singleton, if_neg (by simpa using hu), Nat.add_zero]

/-! ### Runs that START began -/

theorem takeTurns_snoc {us : List Turn} {u : Turn} {s t : State} :
    takeTurns (us ++ [u]) s = .next t ↔
      ∃ s', takeTurns us s = .next s' ∧ takeTurn u s' = .next t := by
  obtain ⟨s', hs'⟩ := takeTurns_next us s
  obtain ⟨t', ht'⟩ := takeTurn_next u s'
  rw [takeTurns_append hs', takeTurns_cons ht', takeTurns_nil]
  simp [hs', ht']

/-- The state that an accepted START leaves: in LOAD of block 0, with no core step done (R97). -/
theorem laterInRun_start {s : State} (hp : s.phase = .idle)
    (hlen : s.len.toNat ≤ s.msgCap.bytes) :
    LaterInRun s.startRun.writeReturns 0 s.startRun.writeReturns := by
  rw [State.startRun_accepted hp hlen]
  exact .refl (by simp) ⟨fun _ => hlen, fun _ => blockCount_pos _, fun _ => rfl, by simp, by simp⟩

theorem stepsDone_start {s : State} (hp : s.phase = .idle)
    (hlen : s.len.toNat ≤ s.msgCap.bytes) : s.startRun.writeReturns.stepsDone = 0 := by
  rw [State.startRun_accepted hp hlen]
  rfl

theorem LaterInRun.stepsDone_of_start {s t : State} (hp : s.phase = .idle)
    (hlen : s.len.toNat ≤ s.msgCap.bytes) {n : Nat}
    (ht : LaterInRun s.startRun.writeReturns n t) : t.stepsDone = n := by
  rw [ht.steps, stepsDone_start hp hlen, Nat.zero_add]

theorem LaterInRun.len_of_start {s t : State} {n : Nat}
    (ht : LaterInRun s.startRun.writeReturns n t) : t.len = s.len :=
  ht.len.trans s.startRun_len

theorem LaterInRun.msgByte_of_start {s t : State} {n : Nat}
    (ht : LaterInRun s.startRun.writeReturns n t) : t.msgByte = s.msgByte :=
  State.msgByte_fun_congr (ht.msg.trans s.startRun_msg) (ht.draw.trans s.startRun_draw)

theorem runProgress_start {s : State} (hp : s.phase = .idle) :
    s.startRun.writeReturns.RunProgress :=
  (State.RunProgress.of_idle hp).startRun.congr rfl rfl rfl rfl rfl rfl rfl rfl rfl

theorem RunGoesOn.init {s : State} {us vs : List Turn} (h : RunGoesOn s (us ++ vs)) :
    RunGoesOn s us := by
  intro n s' hn hs'
  refine h n s' (by rw [List.length_append]; omega) ?_
  rwa [List.take_append_of_le_length hn]

theorem RunGoesOn.running {s s1 : State} {us : List Turn} (h : RunGoesOn s us)
    (hs1 : takeTurns (startTurn :: us) s = .next s1) : s1.phase ≠ .idle :=
  h us.length s1 (Nat.le_refl _) (by rwa [List.take_length])

/-- Every turn of a run that goes on keeps its message, and its core steps are counted. -/
theorem RunGoesOn.laterInRun {s s1 : State} {us : List Turn} (hp : s.phase = .idle)
    (hlen : s.len.toNat ≤ s.msgCap.bytes) (hs1 : takeTurns (startTurn :: us) s = .next s1)
    (hgo : RunGoesOn s us) : LaterInRun s.startRun.writeReturns (us.count .core) s1 := by
  induction us using List.reverseRecOn generalizing s1 with
  | nil =>
    rw [takeTurns_cons (takeTurn_startTurn s)] at hs1
    obtain rfl := Host.Outcome.next.inj hs1
    exact laterInRun_start hp hlen
  | append_singleton us u ih =>
    have hrun := hgo.running hs1
    rw [← List.cons_append, takeTurns_snoc] at hs1
    obtain ⟨s', hs', hu⟩ := hs1
    rw [List.count_append]
    exact (ih hs' hgo.init).turn hu hrun

/-- The last step of a run, and how many came before it. -/
theorem RunGoesOn.ends {s s1 s2 : State} {us : List Turn} (hp : s.phase = .idle)
    (hlen : s.len.toNat ≤ s.msgCap.bytes) (hs1 : takeTurns (startTurn :: us) s = .next s1)
    (hgo : RunGoesOn s us) (hs2 : takeTurn .core s1 = .next s2) (hidle : s2.phase = .idle) :
    s1.phase = .final ∧ s2 = s1.afterFinal ∧
      us.count .core = 114 * blockCount s.len.toNat := by
  have hlater := hgo.laterInRun hp hlen hs1
  obtain ⟨hfinal, hs2⟩ := coreTurn_ends_run hlater.shape hlater.running hs2 hidle
  refine ⟨hfinal, hs2, ?_⟩
  rw [← hlater.stepsDone_of_start hp hlen, State.stepsDone_final hfinal, hlater.len_of_start]

/-- The digest of the list of a message's bytes, from its byte function (R93). -/
theorem digestOf_map_range (m : Nat → Byte) (L : Nat) :
    digestOf ((List.range L).map m) = assemble (digestWords m L) := by
  rw [digestOf, List.length_map, List.length_range]
  congr 1
  exact digestDependsOnTheMessageAlone _ _ L fun i hi => by simp [hi]

/-- Settles O50: the run progress holds in FINAL, so HS is there the digest of the message of the
START, which no turn of the run changes, and STEP_FINAL writes it to DIGEST. -/
theorem completedRunLeavesTheDigest : Obligations.CompletedRunLeavesTheDigest := by
  intro s s1 s2 us hp hlen hs1 hgo hs2 hidle
  have hlater := hgo.laterInRun hp hlen hs1
  obtain ⟨hfinal, rfl, -⟩ := hgo.ends hp hlen hs1 hs2 hidle
  have hhs : s1.hs = digestWords s1.msgByte s1.len.toNat :=
    (State.runProgress_final hfinal).1 (hlater.progress (runProgress_start hp))
  refine ⟨rfl, ?_⟩
  rw [State.afterFinal_digest, hhs, hlater.msgByte_of_start,
    hlater.len_of_start, digestOf_map_range]

/-- Settles O51: the run ends from FINAL, where `State.stepsDone` is 114 N. -/
theorem runTakesItsStepCount : Obligations.RunTakesItsStepCount := by
  intro s s1 s2 us hp hlen hs1 hgo hs2 hidle
  obtain ⟨-, -, hcount⟩ := hgo.ends hp hlen hs1 hs2 hidle
  rw [hcount]

/-! ### The core alone -/

/-- Up to its last step the core, left alone, stays in the run. -/
theorem coreAlone_laterInRun {s : State} (hp : s.phase = .idle)
    (hlen : s.len.toNat ≤ s.msgCap.bytes) {n : Nat} (hn : n ≤ 114 * blockCount s.len.toNat) :
    ∃ t, takeTurns (startTurn :: List.replicate n .core) s = .next t ∧
      LaterInRun s.startRun.writeReturns n t := by
  induction n with
  | zero => exact ⟨_, takeTurns_cons (takeTurn_startTurn s), laterInRun_start hp hlen⟩
  | succ n ih =>
    obtain ⟨t, ht, hlater⟩ := ih (Nat.le_of_succ_le hn)
    obtain ⟨t', ht'⟩ := takeTurn_next .core t
    refine ⟨t', ?_, hlater.turn ht' ?_⟩
    · rw [List.replicate_succ', ← List.cons_append, takeTurns_snoc]
      exact ⟨t, ht, ht'⟩
    · apply State.running_of_stepsDone
      obtain ⟨hlen', -, -⟩ := coreTurn_keeps_message ht'
      rw [coreTurn_stepsDone hlater.shape hlater.running ht', hlater.stepsDone_of_start hp hlen,
        hlen', hlater.len_of_start]
      exact hn

theorem coreAlone_final {s : State} (hp : s.phase = .idle)
    (hlen : s.len.toNat ≤ s.msgCap.bytes) :
    ∃ t, takeTurns (startTurn :: List.replicate (114 * blockCount s.len.toNat) .core) s = .next t ∧
      t.phase = .final := by
  obtain ⟨t, ht, hlater⟩ := coreAlone_laterInRun hp hlen (Nat.le_refl _)
  refine ⟨t, ht, hlater.shape.final_of_stepsDone hlater.running ?_⟩
  rw [hlater.stepsDone_of_start hp hlen, hlater.len_of_start]

/-- In block k the core stands at the place its step count names. -/
theorem coreAlone_inBlock {s : State} (hp : s.phase = .idle)
    (hlen : s.len.toNat ≤ s.msgCap.bytes) {k r : Nat} (hk : k < blockCount s.len.toNat)
    (hr : r < 114) :
    ∃ t, takeTurns (startTurn :: List.replicate (114 * k + r) .core) s = .next t ∧ t.j = k ∧
      t.AtBlockStep r := by
  obtain ⟨t, ht, hlater⟩ := coreAlone_laterInRun hp hlen (n := 114 * k + r) (by omega)
  have hsteps := hlater.stepsDone_of_start hp hlen
  have hfinal : t.phase ≠ .final := by
    intro hq
    rw [State.stepsDone_final hq, hlater.len_of_start] at hsteps
    omega
  have hblock := State.stepsDone_block hlater.running hfinal
  have hj : t.j = k := by omega
  refine ⟨t, ht, hj, ?_⟩
  have hr' : r = t.stepsDone - 114 * t.j := by omega
  rw [hr']
  exact hlater.shape.atBlockStep hlater.running hfinal

/-- Settles O52: inside the blocks by `coreAlone_inBlock`, then FINAL, and its step ends the run. -/
theorem coreAloneCompletesTheRun : Obligations.CoreAloneCompletesTheRun := by
  intro s hp hlen
  obtain ⟨t, ht, hfinal⟩ := coreAlone_final hp hlen
  refine ⟨fun k r hk hr => ?_, ⟨t, ht, hfinal⟩, t.afterFinal, ?_, rfl, rfl⟩
  · obtain ⟨t, ht, hj, hload, hexpand, hround, haccum⟩ := coreAlone_inBlock hp hlen hk hr
    exact ⟨t, ht, hj, hload, hexpand, hround, haccum⟩
  · rw [List.replicate_succ', ← List.cons_append, takeTurns_snoc]
    exact ⟨t, ht, takeTurn_core_final hfinal⟩

/-! ### Fair runs -/

theorem IsExecution.keeps_runShape {σ : Nat → State} {u : Nat → Turn} (hex : IsExecution σ u)
    {n : Nat} (hs : (σ n).RunShape) {m : Nat} (hm : n ≤ m) : (σ m).RunShape := by
  induction m, hm using Nat.le_induction with
  | base => exact hs
  | succ m _ ih => exact takeTurn_keeps_runShape (u m) (σ m) (σ (m + 1)) ih (hex m)

/-- An execution that never leaves its run stays in it, some core steps later. -/
theorem IsExecution.laterInRun {σ : Nat → State} {u : Nat → Turn} (hex : IsExecution σ u) {n : Nat}
    (hs : (σ n).RunShape) (hrun : ∀ m, n ≤ m → (σ m).phase ≠ .idle) {m : Nat} (hm : n ≤ m) :
    ∃ c, LaterInRun (σ n) c (σ m) := by
  induction m, hm using Nat.le_induction with
  | base => exact ⟨0, .refl (hrun n (Nat.le_refl n)) hs⟩
  | succ m hm ih =>
    obtain ⟨c, hc⟩ := ih
    exact ⟨_, hc.turn (hex m) (hrun (m + 1) (Nat.le_succ_of_le hm))⟩

/-- In a fair execution that never left its run the core would take any number of steps. -/
theorem WeaklyFair.stepsDone_unbounded {σ : Nat → State} {u : Nat → Turn} (hfair : WeaklyFair σ u)
    (hex : IsExecution σ u) {n : Nat} (hs : (σ n).RunShape)
    (hrun : ∀ m, n ≤ m → (σ m).phase ≠ .idle) (c : Nat) :
    ∃ m k, n ≤ m ∧ c ≤ k ∧ LaterInRun (σ n) k (σ m) := by
  induction c with
  | zero => exact ⟨n, 0, Nat.le_refl n, Nat.le_refl 0, .refl (hrun n (Nat.le_refl n)) hs⟩
  | succ c ih =>
    obtain ⟨m, k, hm, hk, hlater⟩ := ih
    have hrun' : ∀ p, m ≤ p → (σ p).phase ≠ .idle := fun p hp => hrun p (hm.trans hp)
    obtain ⟨p, hp, hcore⟩ := hfair m hrun'
    obtain ⟨i, hi⟩ := hex.laterInRun hlater.shape hrun' hp
    have hnext := hi.turn (hex p) (hrun' (p + 1) (Nat.le_succ_of_le hp))
    rw [hcore] at hnext
    refine ⟨p + 1, _, Nat.le_succ_of_le (hm.trans hp), ?_, hlater.trans hnext⟩
    rw [List.count_singleton_self]
    omega

theorem WeaklyFair.reaches_idle {σ : Nat → State} {u : Nat → Turn} (hfair : WeaklyFair σ u)
    (hex : IsExecution σ u) {n : Nat} (hs : (σ n).RunShape) :
    ∃ m, n ≤ m ∧ (σ m).phase = .idle := by
  by_contra hnever
  have hrun : ∀ m, n ≤ m → (σ m).phase ≠ .idle := fun m hm hidle => hnever ⟨m, hm, hidle⟩
  obtain ⟨m, k, -, hk, hlater⟩ :=
    hfair.stepsDone_unbounded hex hs hrun (114 * blockCount (σ n).len.toNat + 1)
  exact absurd hlater.steps_le (Nat.not_le_of_gt hk)

/-- The last moment before an execution comes to IDLE. -/
theorem exists_last_running {σ : Nat → State} {n p : Nat} (hrun : (σ n).phase ≠ .idle)
    (hp : n ≤ p) (hidle : (σ p).phase = .idle) :
    ∃ m, n ≤ m ∧ (∀ k, n ≤ k → k ≤ m → (σ k).phase ≠ .idle) ∧ (σ (m + 1)).phase = .idle := by
  have hex : ∃ m, n ≤ m ∧ (σ m).phase = .idle := ⟨p, hp, hidle⟩
  obtain ⟨hn, hfirst⟩ := Nat.find_spec hex
  have hne : Nat.find hex ≠ n := fun he => hrun (he ▸ hfirst)
  obtain ⟨m, hm⟩ : ∃ m, Nat.find hex = m + 1 := Nat.exists_eq_succ_of_ne_zero (by omega)
  rw [hm] at hfirst
  exact ⟨m, by omega, fun k hk hkm hidle => Nat.find_min hex (by omega) ⟨hk, hidle⟩, hfirst⟩

/-- Settles O53: the core cannot step for ever inside a run, whose steps are bounded, so the
execution comes to IDLE; and `turn_ends_run` says by which turn. -/
theorem fairRunsEnd : Obligations.FairRunsEnd := by
  intro σ u hex hfair n hs hrun
  obtain ⟨p, hp, hidle⟩ := hfair.reaches_idle hex hs
  obtain ⟨m, hm, hbefore, hafter⟩ := exists_last_running hrun hp hidle
  exact ⟨m, hm, hbefore, hafter, turn_ends_run (hex.keeps_runShape hs hm)
    (hbefore m hm (Nat.le_refl m)) (hex m) hafter⟩

end Sys2Proof.Machine

namespace Sys2Proof.Machine

/-! ### The digest protocol -/

/-- The turns of the protocol between its START and its reads: the core, and any access that is
neither a CLEAR nor another START (R125). -/
def ProtocolTurn (u : Turn) : Prop :=
  u = .core ∨ ∃ a, u = .access a ∧
    (∀ d, decodeAccess a ≠ .wrCtrlClear d) ∧ ∀ d, decodeAccess a ≠ .wrCtrlStart d

/-- A host operation that is neither a CLEAR nor a START writes neither the phase nor what a host
reads of a run's end. -/
theorem hostOp_keeps_outcome {i : Instr} (hi : selectingPhase i = none)
    (hclear : ∀ d, i ≠ .wrCtrlClear d) (hstart : ∀ d, i ≠ .wrCtrlStart d) {s t : State}
    (h : exec i s = .next t) :
    t.phase = s.phase ∧ t.errLen = s.errLen ∧ t.done = s.done ∧ t.digest = s.digest := by
  rcases hostOp_next hi h with
    ⟨d, rfl⟩ | rfl | ⟨d, hd, -⟩ | ⟨d, hd, -⟩ | ⟨d, -, rfl⟩ | ⟨n, d, -, rfl⟩
  case inr.inr.inl => exact absurd hd (hclear d)
  case inr.inr.inr.inl => exact absurd hd (hstart d)
  all_goals simp

theorem ProtocolTurn.keeps_errLen {u : Turn} (hu : ProtocolTurn u) {s t : State}
    (h : takeTurn u s = .next t) : t.errLen = s.errLen := by
  rcases hu with rfl | ⟨a, rfl, hclear, hstart⟩
  · exact (coreTurn_errors h).2
  · exact (hostOp_keeps_outcome (selectingPhase_decodeAccess a) hclear hstart h).2.1

/-- The run that the START of s began has ended, with the digest of the message of s. -/
structure RunEnded (s t : State) : Prop where
  idle   : t.phase = .idle
  done   : t.done = true
  digest : t.digest = digestWords s.msgByte s.len.toNat

/-- In FINAL the HashState is the digest of the message that the run was started over. -/
theorem LaterInRun.hs_of_final {s t : State} {n : Nat} (hp : s.phase = .idle)
    (ht : LaterInRun s.startRun.writeReturns n t) (hfinal : t.phase = .final) :
    t.hs = digestWords s.msgByte s.len.toNat := by
  rw [(State.runProgress_final hfinal).1 (ht.progress (runProgress_start hp)),
    ht.msgByte_of_start, ht.len_of_start]

/-- A run goes on over any turn of the protocol, or the core ends it by STEP_FINAL. -/
theorem LaterInRun.protocolTurn {s t t' : State} {n : Nat} {u : Turn} (hp : s.phase = .idle)
    (ht : LaterInRun s.startRun.writeReturns n t) (hu : ProtocolTurn u)
    (h : takeTurn u t = .next t') :
    LaterInRun s.startRun.writeReturns (n + [u].count .core) t' ∨ RunEnded s t' := by
  by_cases hidle : t'.phase = .idle
  · right
    rcases hu with rfl | ⟨a, rfl, hclear, hstart⟩
    · obtain ⟨hfinal, rfl⟩ := coreTurn_ends_run ht.shape ht.running h hidle
      exact ⟨rfl, rfl, ht.hs_of_final hp hfinal⟩
    · obtain ⟨hphase, -⟩ :=
        hostOp_keeps_outcome (selectingPhase_decodeAccess a) hclear hstart h
      exact absurd (hphase.symm.trans hidle) ht.running
  · exact .inl (ht.turn h hidle)

/-- After the run the core is quiescent (R103), and the host cannot write DIGEST or DONE. -/
theorem RunEnded.protocolTurn {s t t' : State} {u : Turn} (ht : RunEnded s t)
    (hu : ProtocolTurn u) (h : takeTurn u t = .next t') : RunEnded s t' := by
  rcases hu with rfl | ⟨a, rfl, hclear, hstart⟩
  · rw [takeTurn_core, coreTurn_idle ht.idle] at h
    obtain rfl := Host.Outcome.next.inj h
    exact ht
  · obtain ⟨hphase, -, hdone, hdigest⟩ :=
      hostOp_keeps_outcome (selectingPhase_decodeAccess a) hclear hstart h
    exact ⟨hphase.trans ht.idle, hdone.trans ht.done, hdigest.trans ht.digest⟩

/-- An accepted START and turns of the protocol after it lead into the run, as many steps as the
core took, or to its end; and ERR_LEN is as before the START. -/
theorem protocol_laterInRun_or_runEnded {s t : State} {us : List Turn} (hp : s.phase = .idle)
    (hlen : s.len.toNat ≤ s.msgCap.bytes) (hus : ∀ u ∈ us, ProtocolTurn u)
    (ht : takeTurns (startTurn :: us) s = .next t) :
    t.errLen = s.errLen ∧
    (LaterInRun s.startRun.writeReturns (us.count .core) t ∨ RunEnded s t) := by
  induction us using List.reverseRecOn generalizing t with
  | nil =>
    rw [takeTurns_cons (takeTurn_startTurn s)] at ht
    obtain rfl := Host.Outcome.next.inj ht
    refine ⟨?_, .inl (laterInRun_start hp hlen)⟩
    rw [State.startRun_accepted hp hlen]
    rfl
  | append_singleton us u ih =>
    rw [← List.cons_append, takeTurns_snoc] at ht
    obtain ⟨t', ht', hturn⟩ := ht
    have hu : ProtocolTurn u := hus u (by simp)
    obtain ⟨herr, hplace⟩ := ih (fun v hv => hus v (List.mem_append_left _ hv)) ht'
    refine ⟨(hu.keeps_errLen hturn).trans herr, ?_⟩
    rcases hplace with hlater | hended
    · rw [List.count_append]
      exact hlater.protocolTurn hp hu hturn
    · exact .inr (hended.protocolTurn hu hturn)

/-- A list of bytes from its byte function. -/
theorem map_range_of_getElem? {α : Type} {b : List α} {m : Nat → α}
    (h : ∀ i, i < b.length → some (m i) = b[i]?) : (List.range b.length).map m = b := by
  apply List.ext_getElem (by simp)
  intro i _ hi
  have hbyte := h i hi
  rw [List.getElem?_eq_getElem hi, Option.some.injEq] at hbyte
  simpa using hbyte

/-- The read at DIGEST k returns word k (R118). -/
theorem takeTurn_readDigest (s : State) (k : Fin 8) :
    takeTurn (.access (.read (digestOff k))) s = .next (s.readReturns (s.digest.get k)) := by
  rw [takeTurn_access, decodeAccess_digestOff]
  rfl

/-- Settles O60: the protocol leads into the run or to its end. In the run BUSY is 1 and the core
has not taken 114 N + 1 steps (`LaterInRun.steps_le`); at its end STATUS and DIGEST show the
outcome. -/
theorem digestProtocolYieldsTheDigest : Obligations.DigestProtocolYieldsTheDigest := by
  intro s b us hp hfits hlen hbytes hus
  obtain ⟨t, ht⟩ := takeTurns_next (startTurn :: us) s
  obtain ⟨herr, hplace⟩ := protocol_laterInRun_or_runEnded hp (hlen.trans_le hfits) hus ht
  have hbusy : t.statusWord.getLsbD 0 = t.busy := t.statusWord_getLsbD 0
  refine ⟨t, _, t.statusWord, ht, takeTurn_readStatus t, rfl, ?_⟩
  rcases hplace with hlater | hended
  · have hrunning : t.statusWord.getLsbD 0 = true := hbusy.trans (t.busy_iff.2 hlater.running)
    refine ⟨fun hidle => absurd hrunning (ne_true_of_eq_false hidle), fun hcount => ?_⟩
    have hsteps := hlater.steps_le
    rw [State.writeReturns_len, State.startRun_len, hlen] at hsteps
    omega
  · refine ⟨fun _ => ⟨?done, ?errLen, t.digest, ?digest,
      fun k => ⟨_, takeTurn_readDigest _ k, rfl⟩⟩, fun _ => ?idle⟩
    case idle => exact hbusy.trans (t.busy_false_iff.2 hended.idle)
    case done => exact (t.statusWord_getLsbD 1).trans hended.done
    case errLen => exact (t.statusWord_getLsbD 3).trans herr
    case digest =>
      rw [hended.digest, hlen, ← digestOf_map_range, map_range_of_getElem? hbytes]

/-! ### The offsets of the host operations -/

/-- The reserved offsets by the aligned offset as a number (R40, R62). -/
theorem decodeAccess_reservedOffset {off : Word}
    (h : (0x10 ≤ (alignOff off).toNat ∧ (alignOff off).toNat ≤ 0x1C) ∨
      (0x40 ≤ (alignOff off).toNat ∧ (alignOff off).toNat ≤ 0x7FFFFFFC)) (d : Word) :
    ∃ x, decodeAccess (.read off) = .rdRsvd x ∧ decodeAccess (.write off d) = .wrRsvd x d := by
  rw [alignOff_toNat] at h
  rcases h with ⟨hlow, hhigh⟩ | ⟨hlow, hhigh⟩
  · exact ⟨_, decodeAccess_reservedRegister (by omega) (by omega) d⟩
  · exact ⟨_, decodeAccess_reserved (by omega) (by omega) d⟩

/-- A write at CTRL decodes by its data alone (R58). -/
theorem decodeAccess_write_ctrl {off : Word} (h : alignOff off = 0x00000000#32) (d : Word) :
    decodeAccess (.write off d) = decodeCtrlWrite d :=
  decodeAccess_write_of_alignOff h d

/-- An offset with bit 31 set selects the window word off[30:2] (R56, R60). -/
theorem decodeAccess_of_bit31 {off : Word} (h : off.getLsbD 31 = true) (d : Word) :
    ∃ i : BitVec 29, i.toNat = (off.toNat - 2 ^ 31) / 4 ∧
      decodeAccess (.read off) = .rdMsg i ∧ decodeAccess (.write off d) = .wrMsg i d := by
  have hwindow : 2 ^ 29 ≤ off.toNat / 4 := (offWindow_iff off).1 h
  have hlt := off.isLt
  refine ⟨_, ?_, decodeAccess_window hwindow d⟩
  rw [BitVec.toNat_ofNat]
  omega

/-! ### Reads and ignored writes -/

/-- MSG_CAP fits the 32 bits that RD_MSGCAP returns (R8, R116). -/
theorem msgCap_bytes_ofNat_toNat (c : MsgCap) : (BitVec.ofNat 32 c.bytes).toNat = c.bytes := by
  obtain ⟨-, -, hle⟩ := msgCap_bytes_legal c
  rw [BitVec.toNat_ofNat, Nat.mod_eq_of_lt (by omega)]

/-- Settles O14: the three registers by their aligned offset, the reserved offsets by
`decodeAccess_reservedOffset`. -/
theorem registerReadsReturnTheirValue : Obligations.RegisterReadsReturnTheirValue := by
  refine fun s off => ⟨fun h => ⟨decodeAccess_read_of_alignOff h, rfl⟩,
    fun h => ⟨decodeAccess_read_of_alignOff h, rfl⟩,
    fun h => ⟨decodeAccess_read_of_alignOff h, _, rfl, msgCap_bytes_ofNat_toNat s.msgCap⟩,
    fun h => ?_⟩
  obtain ⟨x, hread, -⟩ := decodeAccess_reservedOffset h 0#32
  exact ⟨x, hread, rfl⟩

/-- Settles O17: each offset selects its write, and the five meanings are the same: a write that
returns nothing. -/
theorem ignoredWritesChangeNothing : Obligations.IgnoredWritesChangeNothing := by
  refine fun s off d => ⟨fun h h1 h0 => ⟨?ctrl, rfl⟩,
    fun h => ⟨decodeAccess_write_of_alignOff h d, rfl⟩,
    fun h => ⟨decodeAccess_write_of_alignOff h d, rfl⟩, fun k h => ⟨?digest, rfl⟩,
    fun h => ?reserved⟩
  case ctrl => rw [decodeAccess_write_ctrl h, decodeCtrlWrite_nop h1 h0]
  case digest =>
    rw [alignOff_toNat] at h
    exact (decodeAccess_digest (by omega) d).2
  case reserved =>
    obtain ⟨x, -, hwrite⟩ := decodeAccess_reservedOffset h d
    exact ⟨x, hwrite, rfl⟩

/-! ### START, LEN and CLEAR -/

theorem exec_wrCtrlClear (d : Word) (s : State) :
    exec (.wrCtrlClear d) s = .next s.clearRun.writeReturns := rfl

theorem exec_wrCtrlStart (d : Word) (s : State) :
    exec (.wrCtrlStart d) s = .next s.startRun.writeReturns := rfl

theorem exec_wrLen (d : Word) (s : State) :
    exec (.wrLen d) s = .next (s.writeLen d).writeReturns := rfl

/-- Settles O19: the three answers of a START are `State.startRun_busy`, `State.startRun_rejected`
and `State.startRun_accepted`. -/
theorem startBeginsARunOrSetsItsErrorBit : Obligations.StartBeginsARunOrSetsItsErrorBit := by
  refine fun s off d h h1 h0 => ⟨?decoded, fun hbusy => ?busy, fun hidle hlen => ?rejected,
    fun hidle hlen => ?accepted⟩
  case decoded => rw [decodeAccess_write_ctrl h, decodeCtrlWrite_start h1 h0]
  case busy => rw [exec_wrCtrlStart, State.startRun_busy hbusy]; rfl
  case rejected => rw [exec_wrCtrlStart, State.startRun_rejected hidle hlen]; rfl
  case accepted => rw [exec_wrCtrlStart, State.startRun_accepted hidle hlen]; rfl

/-- Settles O20, by `State.writeLen_idle` and `State.writeLen_busy`. -/
theorem lenWriteIsStoredOnlyWhileIdle : Obligations.LenWriteIsStoredOnlyWhileIdle := by
  refine fun s off d h => ⟨decodeAccess_write_of_alignOff h d, fun hidle => ?idle,
    fun hbusy => ?busy⟩
  case idle => rw [exec_wrLen, State.writeLen_idle hidle]; rfl
  case busy => rw [exec_wrLen, State.writeLen_busy hbusy]; rfl

/-- Settles O18: bit 1 of the data selects CLEAR before bit 0 is looked at. -/
theorem clearAbortsAndClearsStatus : Obligations.ClearAbortsAndClearsStatus := by
  intro s off d h h1
  exact ⟨(decodeAccess_write_ctrl h d).trans (decodeCtrlWrite_clear h1), exec_wrCtrlClear d s⟩

/-- After the reset input every byte of MSG is a new draw (R141; log 2). -/
theorem State.msgByte_resetInput (s : State) (a : Nat) :
    s.resetInput.msgByte a = Config.unwrittenByte (s.draw + 1) a := rfl

theorem State.reset_digest_get (k : Fin 8) : State.reset.digest.get k = 0x00000000#32 := by
  rw [Vector.get_eq_getElem]
  exact Vector.getElem_replicate k.isLt

/-- Settles O13: CLEAR keeps the buffer and its draw, and the reset input empties the one and
advances the other. -/
theorem clearKeepsWhatResetDoesNot : Obligations.ClearKeepsWhatResetDoesNot := by
  intro s d
  refine ⟨_, _, exec_wrCtrlClear d s, takeTurn_reset s, ?_⟩
  simp [State.msgByte_resetInput, State.reset_digest_get,
    State.msgByte_congr (s := s.clearRun.writeReturns) (s' := s) rfl rfl]

/-! ### The MSG window -/

theorem exec_wrMsg (i : BitVec 29) (d : Word) (s : State) :
    exec (.wrMsg i d) s = .next (s.writeWindow i d).writeReturns := rfl

theorem State.windowWord_within {s : State} {i : BitVec 29}
    (h : 4 * i.toNat + 4 ≤ s.msgCap.bytes) : s.windowWord i = s.msgWord i :=
  if_pos ((s.inCapacity_iff i).2 h)

theorem State.windowWord_beyond {s : State} {i : BitVec 29}
    (h : s.msgCap.bytes < 4 * i.toNat + 4) : s.windowWord i = 0x00000000#32 :=
  if_neg fun hin => Nat.not_le.2 h ((s.inCapacity_iff i).1 hin)

/-- Settles O21: the word returned is `State.windowWord`, whose number within capacity is that of
`be32_toNat`. -/
theorem msgReadReturnsTheWindowWord : Obligations.MsgReadReturnsTheWindowWord := by
  intro s off h
  obtain ⟨i, hi, hread, -⟩ := decodeAccess_of_bit31 h 0#32
  refine ⟨i, s.windowWord i, hi, hread, exec_rdMsg s i, fun hin => ?_, State.windowWord_beyond⟩
  rw [State.windowWord_within hin, State.msgWord, be32_toNat]

/-- Settles O22: the three answers of a window write by the equations of `State.writeWindow`; a
digest of a LEN at or below 4i reads none of the four bytes stored. -/
theorem msgWriteIsStoredWhileIdleWithinCapacity :
    Obligations.MsgWriteIsStoredWhileIdleWithinCapacity := by
  intro s off d h
  obtain ⟨i, hi, -, hwrite⟩ := decodeAccess_of_bit31 h d
  have hother : ∀ a, a < 4 * i.toNat ∨ 4 * i.toNat + 4 ≤ a →
      (s.writeMsgWord i d).writeReturns.msgByte a = s.msgByte a :=
    s.msgByte_writeMsgWord_ne i d
  refine ⟨i, hi, hwrite, fun hout => ?beyond, fun hin hbusy => ?busy, fun hin hidle =>
    ⟨_, exec_wrMsg_idle hin hidle d, rfl, fun m hm => ?stored, hother, fun L hL => ?digest⟩⟩
  case beyond => rw [exec_wrMsg, State.writeWindow_beyond hout]; rfl
  case busy => rw [exec_wrMsg, State.writeWindow_busy hin hbusy]; rfl
  case stored =>
    rw [← lane_toNat]
    exact congrArg BitVec.toNat (s.msgByte_writeMsgWord_lane i d m hm)
  case digest =>
    exact digestDependsOnTheMessageAlone _ _ L fun a ha => hother a (.inl (ha.trans_le hL))

end Sys2Proof.Machine

namespace Sys2Proof.Machine

/-! ### When an access sets an error bit -/

/-- A host operation sets ERR_LEN only as a START that is rejected for its length (R110, R131). -/
theorem hostOp_sets_errLen {i : Instr} (hi : selectingPhase i = none) {s t : State}
    (h : exec i s = .next t) (hs : s.errLen = false) (ht : t.errLen = true) :
    (∃ d, i = .wrCtrlStart d) ∧ s.phase = .idle ∧ s.msgCap.bytes < s.len.toNat := by
  rcases hostOp_next hi h with
    ⟨d, rfl⟩ | rfl | ⟨d, -, rfl⟩ | ⟨d, hd, rfl⟩ | ⟨d, -, rfl⟩ | ⟨n, d, -, rfl⟩
  case inr.inr.inr.inl =>
    rcases s.startRun_cases with ⟨-, hrun⟩ | ⟨hp, hlen, -⟩ | ⟨-, -, hrun⟩
    · simp [hrun, hs] at ht
    · exact ⟨⟨d, hd⟩, hp, hlen⟩
    · simp [hrun, hs] at ht
  all_goals simp [hs] at ht

/-- An operation that sets ERR_BUSY meets a run in progress: each of the three operations that can
set the bit is accepted, or rejected for another reason, while idle (R30, R131). -/
theorem hostOp_sets_errBusy {i : Instr} (hi : selectingPhase i = none) {s t : State}
    (h : exec i s = .next t) (hs : s.errBusy = false) (ht : t.errBusy = true) :
    s.phase ≠ .idle := by
  intro hp
  rcases hostOp_next hi h with
    ⟨d, rfl⟩ | rfl | ⟨d, -, rfl⟩ | ⟨d, -, rfl⟩ | ⟨d, -, rfl⟩ | ⟨n, d, -, rfl⟩
  case inr.inr.inr.inl =>
    rcases s.startRun_cases with ⟨hbusy, -⟩ | ⟨-, -, hrun⟩ | ⟨-, -, hrun⟩
    · exact hbusy hp
    · simp [hrun, hs] at ht
    · simp [hrun, hs] at ht
  case inr.inr.inr.inr.inl => simp [State.writeLen_idle hp, hs] at ht
  case inr.inr.inr.inr.inr =>
    rcases s.writeWindow_cases n d with ⟨-, hw⟩ | ⟨-, hbusy, -⟩ | ⟨-, -, hw⟩
    · simp [hw, hs] at ht
    · exact hbusy hp
    · simp [hw, hs] at ht
  all_goals simp [hs] at ht

/-- Settles O26: ERR_LEN is set only while idle and ERR_BUSY only during a run, so no access sets
both. -/
theorem oneAccessSetsAtMostOneErrorBit : Obligations.OneAccessSetsAtMostOneErrorBit := by
  intro s t a h
  rw [takeTurn_access] at h
  have hlen := hostOp_sets_errLen (selectingPhase_decodeAccess a) h
  have hbusy := hostOp_sets_errBusy (selectingPhase_decodeAccess a) h
  refine ⟨fun ⟨hb, hb', hl, hl'⟩ => ?_, hlen, hbusy⟩
  obtain ⟨-, hidle, -⟩ := hlen hl hl'
  exact hbusy hb hb' hidle

/-! ### Several instances -/

/-- What a transition of instance n left of the platform: everything where there is no such
instance, and else the platform with the instance's own step in its place (R138; log 15). -/
theorem Platform.step_next {p p' : Platform} {n : Nat} (h : p.step n = .next p') :
    (p[n]? = none ∧ p' = p) ∨
    ∃ s s', p[n]? = some s ∧ Sys2Proof.Machine.step s = .next s' ∧ p' = p.set n s' := by
  rw [Platform.step] at h
  split at h
  next hnone => exact .inl ⟨hnone, (Host.Outcome.next.inj h).symm⟩
  next s hsome =>
    split at h
    next s' hstep => exact .inr ⟨s, s', hsome, hstep, (Host.Outcome.next.inj h).symm⟩
    all_goals cases h

/-- Settles O57: the platform is left as it was or has one entry set, by `Platform.step_next`. -/
theorem instancesShareNoState : Obligations.InstancesShareNoState := by
  intro p p' n h
  rcases Platform.step_next h with ⟨hnone, rfl⟩ | ⟨s, s', hsome, hstep, rfl⟩
  · exact ⟨rfl, fun _ _ => rfl, by simp [hnone]⟩
  · obtain ⟨hn, -⟩ := List.getElem?_eq_some_iff.1 hsome
    refine ⟨List.length_set, fun k hk => List.getElem?_set_ne hk.symm, fun r hr => ?_⟩
    obtain rfl : s = r := Option.some.inj (hsome.symm.trans hr)
    exact ⟨s', hstep, List.getElem?_set_self hn⟩

/-! ### Reset -/

/-- Settles O11: `State.resetInput` writes the flags, LEN and the sequencing state, the digest words
are zero by `State.reset_digest_get`, and MSG is drawn anew by `State.msgByte_resetInput`. -/
theorem resetInputGivesTheResetValues : Obligations.ResetInputGivesTheResetValues :=
  fun s => ⟨s.resetInput, takeTurn_reset s, rfl, rfl, rfl, rfl, rfl, rfl, rfl,
    State.reset_digest_get, s.msgByte_resetInput, rfl⟩

/-- With no run and no flag set the STATUS word is zero (R27, R28). -/
theorem State.statusWord_eq_zero {s : State} (hp : s.phase = .idle) (hdone : s.done = false)
    (hbusy : s.errBusy = false) (hlen : s.errLen = false) : s.statusWord = 0x00000000#32 := by
  rw [State.statusWord, s.busy_false_iff.2 hp, hdone, hbusy, hlen]
  rfl

/-- What reset leaves in the elements that STATUS shows, for `State.reset` and for the reset input. -/
theorem reset_status_fields {s t : State} (h : t = State.reset ∨ takeTurn .reset s = .next t) :
    t.phase = .idle ∧ t.done = false ∧ t.errBusy = false ∧ t.errLen = false := by
  rcases h with rfl | h
  · exact ⟨rfl, rfl, rfl, rfl⟩
  · obtain rfl := Host.Outcome.next.inj h
    exact ⟨rfl, rfl, rfl, rfl⟩

/-- Settles O12: STATUS is zero by `State.statusWord_eq_zero`, and the capacity fits its word by
`msgCap_bytes_ofNat_toNat`. -/
theorem afterResetStatusReadsZero : Obligations.AfterResetStatusReadsZero := by
  intro s t h
  obtain ⟨hp, hdone, hbusy, hlen⟩ := reset_status_fields h
  exact ⟨hp, ⟨_, rfl, congrArg some (State.statusWord_eq_zero hp hdone hbusy hlen)⟩,
    ⟨_, rfl, rfl⟩, msgCap_bytes_ofNat_toNat t.msgCap⟩

/-- Settles O46: the buffer lists nothing, and the run invariants ask of an idle state only that t
is 0. -/
theorem resetMeetsTheInvariants : Obligations.ResetMeetsTheInvariants :=
  ⟨⟨List.Pairwise.nil, by simp [State.reset]⟩, .of_idle rfl rfl, .of_idle rfl⟩

end Sys2Proof.Machine
